-- ==== Sys2Proof/Word.lean ====
section
/-! DEFINITION. The word types of the block (00_scope R7, 10_state R20) and the shape of a binary
floating-point format (00_scope R5, R8). -/

namespace Sys2Proof

/-- `u64`: the PRNG registers `S`, `X`, `W` (10_state R20). -/
abbrev U64 := BitVec 64

/-- `u32`: the half of `X` that a draw returns (40_prng R102). -/
abbrev U32 := BitVec 32

/-- `u8`: the sample counter `CNT` (10_state R24). -/
abbrev U8 := BitVec 8

/-- One value of the command port `CMD[1:0]` (30_encoding R70). -/
abbrev U2 := BitVec 2

/-- The two widths that fix a binary floating-point format: from the top, one sign bit, the biased
exponent and the fraction (00_scope R8; the layout is IEEE 754, 93 G1). -/
structure Format where
  expBits  : Nat
  fracBits : Nat
  deriving DecidableEq, Repr

/-- Sign, exponent and fraction together. -/
abbrev Format.width (f : Format) : Nat := f.expBits + f.fracBits + 1

/-- IEEE 754 single precision, the spec's value of `FMT` (00_scope R5). -/
abbrev Format.binary32 : Format := ⟨8, 23⟩

/-- IEEE 754 double precision, the only other format the spec gives vectors for (00_scope R5). -/
abbrev Format.binary64 : Format := ⟨11, 52⟩

end Sys2Proof
end

