-- ==== Sys2Proof/Config.lean ====
section
/-! DEFINITION. What the design fixes (00_scope R5) and the free values: constants with no body,
of which nothing can be proved but what holds for every value. -/

namespace Sys2Proof

/-- `FMT`, the format of `OUT`, `HOLD[k]`, `SAMPLE` and all float arithmetic: binary32
(00_scope R5, 92 D5). -/
abbrev Config.fmt : Format := Format.binary32

/-- A value of the format `FMT`, as its bit pattern (00_scope R8). -/
abbrev Fp := BitVec Config.fmt.width

/-- `SEED`, the value of `S` after reset or `INIT` (00_scope R5, 10_state R21). -/
def Config.seed : U64 := 0x2252E7CD98846FDD#64

/-- `DMAX`, the draw divisor, as the exact integer 2^31 - 1 (00_scope R5). -/
def Config.dmax : Int := 2147483647

/-- `N_OCT`, the number of octave slots (00_scope R5, 10_state R26). -/
abbrev Config.nOct : Nat := 9

/-- The float operations that can meet an invalid operand. -/
inductive FpOp where
  | add
  | sub
  | div
  deriving DecidableEq, Repr

/-- FREE VALUE (notes/assumptions/4.md). Picks which NaN an operation delivers where IEEE 754 says the
result is a NaN and the spec names no pattern; `fpNan` turns it into a NaN of the format. -/
opaque Config.freeNan (op : FpOp) (f : Format) (a b : BitVec f.width) : Nat

/-- FREE VALUE (notes/assumptions/3.md). What a host read of `SAMPLE` returns while the registers hold
no value, by the number of steps the run has performed: "a draw under no law" (10_state R36, 93 I3).
DESIGN CHOICE (notes/assumptions/13.md): there is ONE such function, so reads in the no-value state agree
whenever the step counts agree, across instances, runs and power-ups too; the spec does not say so. -/
opaque Config.freeSample (steps : Nat) : Fp

/-- FREE VALUE (notes/assumptions/3.md). Stands in the 64-bit registers before the first reset or
`INIT`, by register; no rule reads it (10_state R36). -/
opaque Config.powerOn64 (reg : Nat) : U64

/-- FREE VALUE (notes/assumptions/3.md). Stands in `CNT` before the first reset or `INIT`. -/
opaque Config.powerOnCnt : U8

/-- FREE VALUE (notes/assumptions/3.md). Stands in the float registers before the first reset or
`INIT`, by register. -/
opaque Config.powerOnFp (reg : Nat) : Fp

/-- FREE VALUE (notes/assumptions/10.md). `LATENCY` less one. -/
opaque Config.latencyLessOne : Nat

/-- `LATENCY`, steps or cycles a command takes in an implementation: at least 1, and no rule reads
it (00_scope R5, 70_reset R178). -/
def Config.latency : Nat := Config.latencyLessOne + 1

end Sys2Proof
end

