-- ==== Sys2Proof/Machine/Float.lean ====
section
/-! DEFINITION. The float arithmetic of 00_scope R8 on bit patterns of any binary format: `f`, `⊕`,
`⊖`, `⊘`, each computed exactly and rounded once, to nearest, ties to even, subnormals kept
(00_scope R5, 92 D5, D8).

A finite value is a whole number of QUANTA, the quantum being the least positive value of the format
(2^-149 in binary32), so every exact sum is an integer and every exact quotient a ratio of integers.
A pattern without its sign bit is a MAGNITUDE; magnitudes in numeric order are values in order.
The layout and the special values are IEEE 754 (93 G1, G4, G5; notes/assumptions/6.md). -/

namespace Sys2Proof.Machine

/-- The exponent bias: 127 in binary32. -/
def fpBias (f : Format) : Nat := 2 ^ (f.expBits - 1) - 1

/-- How many quanta make 1.0: 2^149 in binary32. -/
def fpUnit (f : Format) : Nat := 2 ^ (fpBias f + f.fracBits - 1)

/-- The magnitude of infinity: exponent field all ones, fraction zero. -/
def fpInfMag (f : Format) : Nat := (2 ^ f.expBits - 1) * 2 ^ f.fracBits

/-- The weight of the sign bit. -/
def fpSignWeight (f : Format) : Nat := 2 ^ (f.expBits + f.fracBits)

/-- The quanta of a finite magnitude: a subnormal counts its fraction, a normal value its
significand with the hidden bit, scaled by its exponent field. -/
def fpQuanta (f : Format) (mag : Nat) : Nat :=
  if mag / 2 ^ f.fracBits = 0 then mag
  else (2 ^ f.fracBits + mag % 2 ^ f.fracBits) * 2 ^ (mag / 2 ^ f.fracBits - 1)

/-- The exponent of the rounding step for an exact value of `num / den` quanta: the step is one
quantum among the subnormals, else what leaves `fracBits + 1` significant bits. -/
def fpStepExp (f : Format) (num den : Nat) : Nat := Nat.log2 (num / den) - f.fracBits

/-- `num / den` to the nearest whole number, a tie to the even one. -/
def nearestEven (num den : Nat) : Nat :=
  let q := num / den
  let r := num % den
  if 2 * r < den then q
  else if den < 2 * r then q + 1
  else q + q % 2

/-- The magnitude nearest to `num / den` quanta, ties to even, infinity where the rounded value
passes the largest finite one (00_scope R8). Carrying out of the fraction moves to the next exponent
of itself, since magnitudes run on from one exponent to the next. -/
def fpRoundMag (f : Format) (num den : Nat) : Nat :=
  let e := fpStepExp f num den
  min (e * 2 ^ f.fracBits + nearestEven num (den * 2 ^ e)) (fpInfMag f)

/-- The first magnitude, in quanta, that rounds to infinity: the midpoint between the largest finite value
and the next one there would be (IEEE 754's overflow rule, notes/assumptions/6.md). -/
def fpOverflowBound (f : Format) : Nat := (2 ^ (f.fracBits + 2) - 1) * 2 ^ (2 ^ f.expBits - 4)

/-- What a pattern stands for. -/
inductive FpVal where
  | nan
  | inf (neg : Bool)
  /-- A finite value: its sign and its magnitude in quanta. -/
  | fin (neg : Bool) (quanta : Nat)
  deriving DecidableEq, Repr

/-- Read a pattern (00_scope R8). -/
def fpUnpack (f : Format) (b : BitVec f.width) : FpVal :=
  let neg := decide (fpSignWeight f ≤ b.toNat)
  let mag := b.toNat % fpSignWeight f
  if mag < fpInfMag f then .fin neg (fpQuanta f mag)
  else if mag = fpInfMag f then .inf neg
  else .nan

/-- The pattern of a sign and a magnitude. -/
def fpPack (f : Format) (neg : Bool) (mag : Nat) : BitVec f.width :=
  BitVec.ofNat f.width ((if neg then fpSignWeight f else 0) + mag)

/-- A NaN of the format, any one of them: the free value picks its sign and its non-zero fraction
(notes/assumptions/4.md). -/
def fpNan (op : FpOp) (f : Format) (a b : BitVec f.width) : BitVec f.width :=
  let c := Config.freeNan op f a b
  fpPack f (decide (c % 2 = 1)) (fpInfMag f + 1 + c / 2 % (2 ^ f.fracBits - 1))

/-- The signed number of quanta. -/
def fpSigned (neg : Bool) (quanta : Nat) : Int :=
  if neg then -(quanta : Int) else quanta

/-- Change the sign of an operand that is no NaN: `a ⊖ b` adds `b` so changed. -/
def fpNegVal : FpVal → FpVal
  | .nan => .nan
  | .inf s => .inf (!s)
  | .fin s q => .fin (!s) q

/-- An exact signed number of quanta rounded to the format; an exact zero gets the sign given. -/
def fpRoundInt (f : Format) (zeroNeg : Bool) (x : Int) : BitVec f.width :=
  if x = 0 then fpPack f zeroNeg 0
  else fpPack f (decide (x < 0)) (fpRoundMag f x.natAbs 1)

/-- The sum of two values that have been read; `nan` is what an invalid sum gives. An exact zero sum
is `+0.0`, and `-0.0` only when both terms are (93 G4). -/
def fpSumVal (f : Format) (nan : BitVec f.width) : FpVal → FpVal → BitVec f.width
  | .nan, _ => nan
  | _, .nan => nan
  | .inf s, .inf t => if s = t then fpPack f s (fpInfMag f) else nan
  | .inf s, .fin _ _ => fpPack f s (fpInfMag f)
  | .fin _ _, .inf t => fpPack f t (fpInfMag f)
  | .fin s m, .fin t n => fpRoundInt f (s && t) (fpSigned s m + fpSigned t n)

/-- `a ⊕ b` (00_scope R8). -/
def fpAdd (f : Format) (a b : BitVec f.width) : BitVec f.width :=
  fpSumVal f (fpNan .add f a b) (fpUnpack f a) (fpUnpack f b)

/-- `a ⊖ b` (00_scope R8). -/
def fpSub (f : Format) (a b : BitVec f.width) : BitVec f.width :=
  fpSumVal f (fpNan .sub f a b) (fpUnpack f a) (fpNegVal (fpUnpack f b))

/-- The quotient of two values that have been read; `nan` is what an invalid quotient gives. -/
def fpQuotVal (f : Format) (nan : BitVec f.width) : FpVal → FpVal → BitVec f.width
  | .nan, _ => nan
  | _, .nan => nan
  | .inf _, .inf _ => nan
  | .inf s, .fin t _ => fpPack f (s ^^ t) (fpInfMag f)
  | .fin s _, .inf t => fpPack f (s ^^ t) 0
  | .fin s m, .fin t n =>
    if n = 0 then (if m = 0 then nan else fpPack f (s ^^ t) (fpInfMag f))
    else fpPack f (s ^^ t) (fpRoundMag f (m * fpUnit f) n)

/-- `a ⊘ b` (00_scope R8). -/
def fpDiv (f : Format) (a b : BitVec f.width) : BitVec f.width :=
  fpQuotVal f (fpNan .div f a b) (fpUnpack f a) (fpUnpack f b)

/-- `f(n)` for the rational `± num / den`, `den` positive (00_scope R8). -/
def fpOfRatio (f : Format) (neg : Bool) (num den : Nat) : BitVec f.width :=
  fpPack f neg (fpRoundMag f (num * fpUnit f) den)

/-- `f(n)` for an integer `n`; `f(0)` is `+0.0` (00_scope R8, 92 D8). -/
def fpOfInt (f : Format) (n : Int) : BitVec f.width :=
  fpOfRatio f (decide (n < 0)) n.natAbs 1

/-- Whether a pattern is a finite value. -/
def fpFinite (f : Format) (b : BitVec f.width) : Bool :=
  match fpUnpack f b with
  | .nan => false
  | .inf _ => false
  | .fin _ _ => true

/-- The signed quanta of a finite pattern, and 0 of one that is not finite. -/
def fpValue (f : Format) (b : BitVec f.width) : Int :=
  match fpUnpack f b with
  | .nan => 0
  | .inf _ => 0
  | .fin s q => fpSigned s q

end Sys2Proof.Machine
end

