-- ==== Sys2Proof/Machine/Flags.lean ====
section
/-! DEFINITION. The block has no flags, and records no floating-point condition (10_state R31, 92 D17).
The IEEE conditions of each operation are computed here all the same, so that what 10_state R31 and
41_accumulator R131, R133 say of them (which can arise, which never) can be stated. No rule and no
instruction reads them. Tininess is judged before rounding (notes/assumptions/6.md), and a NaN operand
raises no condition (notes/assumptions/14.md). -/

namespace Sys2Proof.Machine

/-- The five IEEE 754 conditions of one operation. -/
structure FpCond where
  invalid   : Bool
  divByZero : Bool
  overflow  : Bool
  underflow : Bool
  inexact   : Bool
  deriving DecidableEq, Repr

/-- No condition. -/
def fpCondNone : FpCond := ⟨false, false, false, false, false⟩

/-- The conditions of rounding `num / den` quanta: too large for the format, not zero and below the
least normal value, not representable. -/
def fpRoundCond (f : Format) (num den : Nat) : FpCond where
  invalid   := false
  divByZero := false
  overflow  := decide (fpRoundMag f num den = fpInfMag f)
  underflow := decide (num ≠ 0 ∧ num < 2 ^ f.fracBits * den)
  inexact   := decide (fpRoundMag f num den = fpInfMag f ∨ fpQuanta f (fpRoundMag f num den) * den ≠ num)

/-- The conditions of a sum of values that have been read. DESIGN CHOICE: a NaN operand raises none,
quiet or signalling (notes/assumptions/14.md). -/
def fpSumCond (f : Format) : FpVal → FpVal → FpCond
  | .nan, _ => fpCondNone
  | _, .nan => fpCondNone
  | .inf s, .inf t => { fpCondNone with invalid := decide (s ≠ t) }
  | .inf _, .fin _ _ => fpCondNone
  | .fin _ _, .inf _ => fpCondNone
  | .fin s m, .fin t n => fpRoundCond f (fpSigned s m + fpSigned t n).natAbs 1

/-- The conditions of `a ⊕ b`. -/
def fpAddCond (f : Format) (a b : BitVec f.width) : FpCond :=
  fpSumCond f (fpUnpack f a) (fpUnpack f b)

/-- The conditions of `a ⊖ b`. -/
def fpSubCond (f : Format) (a b : BitVec f.width) : FpCond :=
  fpSumCond f (fpUnpack f a) (fpNegVal (fpUnpack f b))

/-- The conditions of a quotient of values that have been read. DESIGN CHOICE: a NaN operand raises none,
quiet or signalling (notes/assumptions/14.md). -/
def fpQuotCond (f : Format) : FpVal → FpVal → FpCond
  | .nan, _ => fpCondNone
  | _, .nan => fpCondNone
  | .inf _, .inf _ => { fpCondNone with invalid := true }
  | .inf _, .fin _ _ => fpCondNone
  | .fin _ _, .inf _ => fpCondNone
  | .fin _ m, .fin _ n =>
    if n = 0 then { fpCondNone with invalid := decide (m = 0), divByZero := decide (m ≠ 0) }
    else fpRoundCond f (m * fpUnit f) n

/-- The conditions of `a ⊘ b`. -/
def fpDivCond (f : Format) (a b : BitVec f.width) : FpCond :=
  fpQuotCond f (fpUnpack f a) (fpUnpack f b)

/-- The conditions of the conversion `f(n)` of an integer. -/
def fpOfIntCond (f : Format) (n : Int) : FpCond :=
  fpRoundCond f (n.natAbs * fpUnit f) 1

end Sys2Proof.Machine
end

