-- ==== Sys2Proof/Syntax.lean ====
section
/-! DEFINITION. The commands of the block: one constructor per row of spec/opcode_table.json
(30_encoding R73). No command has an operand (30_encoding R72). -/

namespace Sys2Proof

/-- The four values of the command field `op` (30_encoding R73). The set is closed (R80). -/
inductive Instr where
  /-- `IDLE`, `00`: no operation (41_accumulator R128). -/
  | idle
  /-- `INIT`, `01`: initialize the generator (41_accumulator R122). -/
  | init
  /-- `NEXT`, `10`: produce the next sample (41_accumulator R123). -/
  | next
  /-- `RSVD`, `11`: the reserved encoding, which is no command (41_accumulator R129). -/
  | rsvd
  deriving DecidableEq, Repr

end Sys2Proof
end

