-- ==== Sys2Proof/WellFormed.lean ====
section
/-! DEFINITION. Well-formedness. A command has no operand, so every command is well formed
(30_encoding R72); the one thing the spec calls not valid is a repeat count of zero in a listing
(30_encoding R79), so the items of a listing stand here with their check. -/

namespace Sys2Proof

/-- Every command is well formed: there is no operand to check (30_encoding R72). The reserved
encoding is a row of the table too; that a host must not issue it is a duty of the host
(60_exceptions R160), stated in Safety. -/
def Instr.wf : Instr → Bool
  | .idle => true
  | .init => true
  | .next => true
  | .rsvd => true

/-- One line of a command listing (30_encoding R78, R79). -/
inductive Item where
  /-- A mnemonic, `RSVD` for the reserved encoding among them. -/
  | cmd (i : Instr)
  /-- `RESET`: the `RST` input is asserted for one step, and `CMD` carries `IDLE`. -/
  | reset
  /-- `NEXT*k`. -/
  | nextTimes (k : Nat)
  /-- `IDLE*k`. -/
  | idleTimes (k : Nat)
  deriving DecidableEq, Repr

/-- "`NEXT*0` and `IDLE*0` are not valid and an assembler refuses them" (30_encoding R79). -/
def Item.wf : Item → Bool
  | .cmd i => i.wf
  | .reset => true
  | .nextTimes k => decide (1 ≤ k)
  | .idleTimes k => decide (1 ≤ k)

end Sys2Proof
end

