-- ==== Sys2Proof/Decode.lean ====
section
/-! DEFINITION. The decoder of the 2-bit command port and, after it, the encoder
(30_encoding R70 to R77). -/

namespace Sys2Proof

/-- Decoding is total: every 2-bit value is one row of the table (30_encoding R73). -/
def decodeCmd (w : U2) : Instr :=
  if w = 0b00#2 then .idle
  else if w = 0b01#2 then .init
  else if w = 0b10#2 then .next
  else .rsvd

/-- Why a number is not a command word: the port has exactly two bits (30_encoding R70, R77). -/
inductive DecodeError where
  /-- Fewer than two bits were given. -/
  | tooShort
  /-- A bit above bit 1 is set: the port has no such bit. -/
  | tooWide
  deriving DecidableEq, Repr

/-- Read a command from a number of `nbits` bits, bit 0 the least significant (00_scope R6). -/
def decodeWord (nbits w : Nat) : Except DecodeError Instr :=
  if nbits < 2 then .error .tooShort
  else if 4 ≤ w then .error .tooWide
  else .ok (decodeCmd (BitVec.ofNat 2 w))

/-- The command the decoder reads from a word numbered as spec/opcode_table.json numbers it. -/
def decodeTableWord (nbits w : Nat) : Option Instr :=
  match decodeWord nbits w with
  | .ok i => some i
  | .error _ => none

/-- The command word of a command (30_encoding R73; the reserved value is spelled `RSVD`, R78). -/
def encode : Instr → U2
  | .idle => 0b00#2
  | .init => 0b01#2
  | .next => 0b10#2
  | .rsvd => 0b11#2

end Sys2Proof
end

