-- ==== Sys2Proof/Machine/State.lean ====
section
/-! DEFINITION. The state of one block (10_state R20, R35 to R37), the two ways a step can stop
(60_exceptions R150 to R153), and the states after reset and at power-up. -/

namespace Sys2Proof.Machine

/-- What the host puts on the input ports in one step (30_encoding R70, R76). -/
structure Port where
  /-- The command word on `CMD[1:0]`. -/
  cmd : U2
  /-- Whether the reset input `RST` is asserted (70_reset R170). -/
  rst : Bool
  deriving DecidableEq, Repr

/-- The block's registers under the spec's names (10_state R20), the spec's bookkeeping, and the
model's list of port values to come. -/
structure State where
  /-- Bookkeeping of the spec: `false` = every register holds no value, ⊥ (10_state R36, R37). -/
  init : Bool
  /-- The Weyl increment, a constant once initialised (R21). -/
  S : U64
  /-- The squared and folded value (R22). -/
  X : U64
  /-- The Weyl accumulator (R23). -/
  W : U64
  /-- The sample counter, which wraps (R24). -/
  CNT : U8
  /-- The running sum (R25). -/
  OUT : Fp
  /-- The nine hold slots (R26). -/
  HOLD : Vector Fp Config.nOct
  /-- The result register (R27). -/
  SAMPLE : Fp
  /-- The MODEL's own field: the port values of the coming steps, next first
  (notes/assumptions/1.md). -/
  ports : List Port
  /-- Bookkeeping: how many steps of the run have been performed, for the step number that a fault
  or a refusal records (60_exceptions R150, R151; notes/assumptions/2.md). -/
  steps : Nat
  deriving DecidableEq, Repr

/-- Why the machine stops with a fault. The list is closed (60_exceptions R153). -/
inductive Fault where
  /-- `Uninitialised`, code 2: raised by `NEXT` alone, when no reset and no `INIT` has happened since
  power-up; it records the number of the step within the run (60_exceptions R151). Safe: it makes
  claims unprovable. -/
  | uninitialised (step : Nat)
  deriving DecidableEq, Repr

/-- Why a step has no meaning. -/
inductive Refusal where
  /-- The host's name for an instruction not modelled yet. No arm of `exec` raises it: every
  command has its meaning. Safe. -/
  | notModelled (mnemonic : String)
  /-- `ReservedCommand`, code 1: raised by a step whose `CMD` carries `11` while `RST` is not
  asserted; it records the command bits and the number of the step within the run
  (60_exceptions R150). Safe: it makes claims unprovable. -/
  | reservedCommand (cmd : U2) (step : Nat)
  deriving DecidableEq, Repr

/-- The machine right after reset (10_state R35, 70_reset R170): the state after a run whose one step
asserted `RST`, with nothing on the ports yet. -/
def State.reset : State where
  init   := true
  S      := Config.seed
  X      := 0
  W      := 0
  CNT    := 0
  OUT    := 0
  HOLD   := Vector.replicate Config.nOct 0
  SAMPLE := 0
  ports  := []
  steps  := 1

/-- The machine at power-up: ⊥ in every register, no step performed (10_state R36). -/
def State.powerOn : State where
  init   := false
  S      := Config.powerOn64 0
  X      := Config.powerOn64 1
  W      := Config.powerOn64 2
  CNT    := Config.powerOnCnt
  OUT    := Config.powerOnFp 9
  HOLD   := Vector.ofFn fun k => Config.powerOnFp k
  SAMPLE := Config.powerOnFp 10
  ports  := []
  steps  := 0

end Sys2Proof.Machine
end

