-- ==== Sys2Proof/Machine/Operands.lean ====
section
/-! DEFINITION. No command has an operand (30_encoding R72). The one index in the block is the octave,
which it computes from `CNT` itself (20_memory R51): the selector and the access to a slot of the hold
file stand here. -/

namespace Sys2Proof.Machine

/-- The octave selector: the number of trailing zero bits of an 8-bit value, and 8 for zero, the
sentinel, which is a real slot (41_accumulator R120, 90 C2). -/
def tz8 (c : U8) : Fin 9 :=
  if c.getLsbD 0 then 0
  else if c.getLsbD 1 then 1
  else if c.getLsbD 2 then 2
  else if c.getLsbD 3 then 3
  else if c.getLsbD 4 then 4
  else if c.getLsbD 5 then 5
  else if c.getLsbD 6 then 6
  else if c.getLsbD 7 then 7
  else 8

/-- The octave a `NEXT` in this state selects (41_accumulator R124). -/
def octave (s : State) : Fin 9 := tz8 s.CNT

/-- Read slot `k` of the hold file (00_scope R9, 10_state R26). -/
def readHold (s : State) (k : Fin 9) : Fp := s.HOLD[k]

/-- Write slot `k` of the hold file; an index is always in range (41_accumulator R134). -/
def writeHold (s : State) (k : Fin 9) (v : Fp) : State := { s with HOLD := s.HOLD.set k v }

end Sys2Proof.Machine
end

