-- ==== Sys2Proof/Machine/Ops.lean ====
section
/-! DEFINITION. The named operations over the block's registers, the ports and the outcomes of a step.
The block takes no exception and returns from none (60_exceptions R154, R157, R158); what stands in
their place are the two stops of R150 and R151, each one shared operation here. -/

namespace Sys2Proof.Machine

/-- Write `OUT` (10_state R25). -/
def writeOut (s : State) (v : Fp) : State := { s with OUT := v }

/-- Write the PRNG registers a draw writes; `S` has no writer but `initRegs` (10_state R21 to R23). -/
def writePrng (s : State) (x w : U64) : State := { s with X := x, W := w }

/-- Write `CNT` (10_state R24). -/
def writeCnt (s : State) (c : U8) : State := { s with CNT := c }

/-- Write the result register (10_state R27). -/
def writeSample (s : State) (v : Fp) : State := { s with SAMPLE := v }

/-- The effect that `INIT` and reset share: every register to its value of 10_state R35, and the end
of ⊥ (41_accumulator R122, 70_reset R170). The zeros are `+0.0` (92 D9). -/
def initRegs (s : State) : State :=
  { s with
    init := true, S := Config.seed, X := 0, W := 0, CNT := 0, OUT := 0,
    HOLD := Vector.replicate Config.nOct 0, SAMPLE := 0 }

/-- What the host reads from the result register, at any time and without side effect: the register,
or a free value while it holds none (10_state R27, R36, 20_memory R54). DESIGN CHOICE: that free value
depends on the step count alone, so two instances, runs or power-ups in the no-value state read alike at
the same step count, which the spec leaves open (notes/assumptions/3.md and 13.md). -/
def readSample (s : State) : Fp :=
  if s.init then s.SAMPLE else Config.freeSample s.steps

/-- A port that asks for nothing: `CMD` carries `IDLE` (30_encoding R70). -/
def idlePort : Port := ⟨0b00#2, false⟩

/-- The port values of one step of a command (30_encoding R70). -/
def cmdPort (i : Instr) : Port := ⟨encode i, false⟩

/-- What the ports carry in the next step: the next value the host has put on them, and `IDLE` when it
has put none ("A step with nothing to do carries `IDLE`", 30_encoding R70; notes/assumptions/1.md). -/
def portNow (s : State) : Port := s.ports.headD idlePort

/-- The end of a step: its port value is used up and the step is counted. -/
def tick (s : State) : State := { s with ports := s.ports.tail, steps := s.steps + 1 }

/-- The number, within the run, of the step being performed: the first is 1 (60_exceptions R150). -/
def stepNumber (s : State) : Nat := s.steps + 1

/-- Stop with `Uninitialised`, recording the step (60_exceptions R151). -/
def faultUninitialised (s : State) : Host.Outcome State Fault Refusal :=
  .fault (.uninitialised (stepNumber s))

/-- Stop with `ReservedCommand`, recording the command bits and the step (60_exceptions R150). -/
def refuseReserved (cmd : U2) (s : State) : Host.Outcome State Fault Refusal :=
  .refused (.reservedCommand cmd (stepNumber s))

/-- Continue from a next state; a stop stays a stop. -/
def onNext (o : Host.Outcome State Fault Refusal) (k : State → Host.Outcome State Fault Refusal) :
    Host.Outcome State Fault Refusal :=
  match o with
  | .next s => k s
  | .fault r => .fault r
  | .refused r => .refused r

/-- The model's reason codes (60_exceptions R150, R151); the host's own refusal has none. -/
def reasonCode : Host.Outcome State Fault Refusal → Option Nat
  | .next _ => none
  | .fault (.uninitialised _) => some 2
  | .refused (.reservedCommand _ _) => some 1
  | .refused _ => none

end Sys2Proof.Machine
end

