-- ==== Sys2Proof/Machine/Prng.lean ====
section
/-! DEFINITION. The middle-square-Weyl generator (40_prng): DRAW, a micro-operation with no encoding
that only `NEXT` runs (30_encoding R75). All arithmetic wraps (40_prng R104). -/

namespace Sys2Proof.Machine

/-- `rot32(v)`: the two 32-bit halves swapped (00_scope R7). -/
def rot32 (v : U64) : U64 := v.extractLsb' 0 32 ++ v.extractLsb' 32 32

/-- `sint32(b)`: two's complement (00_scope R7). -/
def sint32 (b : U32) : Int :=
  if b.toNat < 2 ^ 31 then (b.toNat : Int) else (b.toNat : Int) - 2 ^ 32

/-- `w1`: the Weyl accumulator after the draw (40_prng R101). -/
def drawW (w s : U64) : U64 := w + s

/-- `x2`: the square plus the advanced Weyl accumulator (40_prng R101). -/
def drawSum (x w s : U64) : U64 := x * x + drawW w s

/-- `x3`: the folded value that goes back to `X` (40_prng R101). -/
def drawX (x w s : U64) : U64 := rot32 (drawSum x w s)

/-- `r`: the low 32 bits of the new `X`, read as a signed integer (40_prng R102). -/
def drawResult (x3 : U64) : Int := sint32 (x3.extractLsb' 0 32)

/-- DRAW: the state after the draw and the number drawn (40_prng R101). -/
def draw (s : State) : State × Int :=
  let x3 := drawX s.X s.W s.S
  (writePrng s x3 (drawW s.W s.S), drawResult x3)

end Sys2Proof.Machine
end

