-- ==== Sys2Proof/Machine/Accumulator.lean ====
section
/-! DEFINITION. The four stages of `NEXT` (41_accumulator R124 to R127): first the float values they
compute, in any format, then the stages over the state, in the format `FMT`. -/

namespace Sys2Proof.Machine

/-- The unscaled value of a draw: `f(r) ⊘ f(DMAX)` (41_accumulator R125, 92 D6). -/
def unscaled (f : Format) (r : Int) : BitVec f.width :=
  fpDiv f (fpOfInt f r) (fpOfInt f Config.dmax)

/-- The rescaler's quotient: `v ⊘ f(k + 2)` (41_accumulator R126). The "octave < -1" branch of the
reference code does not exist here: an octave is never negative. -/
def rescaled (f : Format) (k : Fin 9) (v : BitVec f.width) : BitVec f.width :=
  fpDiv f v (fpOfInt f ((k.val : Int) + 2))

/-- The output halving: `v ⊘ f(2)` (41_accumulator R127). -/
def halved (f : Format) (v : BitVec f.width) : BitVec f.width := fpDiv f v (fpOfInt f 2)

/-- The new value of `HOLD[k]` for a draw `r`. -/
def newHold (f : Format) (k : Fin 9) (r : Int) : BitVec f.width := rescaled f k (unscaled f r)

/-- The new value of `OUT`: the stale slot taken out, the new one put in, each rounded. -/
def newOut (f : Format) (out stale fresh : BitVec f.width) : BitVec f.width :=
  fpAdd f (fpSub f out stale) fresh

/-- Random refresher (41_accumulator R125): take the stale value of slot `k` out of `OUT`, draw, and
put the unscaled value in the slot. -/
def refreshSlot (k : Fin 9) (s : State) : State :=
  let s := writeOut s (fpSub Config.fmt s.OUT (readHold s k))
  let d := draw s
  writeHold d.1 k (unscaled Config.fmt d.2)

/-- Rescaler (41_accumulator R126): the slot is divided by `k + 2` in place. -/
def rescaleSlot (k : Fin 9) (s : State) : State :=
  writeHold s k (rescaled Config.fmt k (readHold s k))

/-- Running-sum integrator (41_accumulator R127): put the slot into `OUT`, advance `CNT`, and halve
`OUT` into `SAMPLE`. -/
def integrate (k : Fin 9) (s : State) : State :=
  let s := writeOut s (fpAdd Config.fmt s.OUT (readHold s k))
  let s := writeCnt s (s.CNT + 1)
  writeSample s (halved Config.fmt s.OUT)

/-- The pseudocode of `NEXT` in an initialised state: the selector, on `CNT` as it stands at the
start, and the three other stages in order (41_accumulator R123, R124). -/
def produceSample (s : State) : State :=
  let k := octave s
  integrate k (rescaleSlot k (refreshSlot k s))

/-- The IEEE conditions of the float operations of one `NEXT`, in the order of 41_accumulator R123.
Nothing records them (10_state R31). -/
def nextConds (s : State) : List FpCond :=
  let k := octave s
  let r := (draw s).2
  let rest := fpSub Config.fmt s.OUT (readHold s k)
  let fresh := newHold Config.fmt k r
  [ fpSubCond Config.fmt s.OUT (readHold s k),
    fpOfIntCond Config.fmt r,
    fpOfIntCond Config.fmt Config.dmax,
    fpDivCond Config.fmt (fpOfInt Config.fmt r) (fpOfInt Config.fmt Config.dmax),
    fpOfIntCond Config.fmt ((k.val : Int) + 2),
    fpDivCond Config.fmt (unscaled Config.fmt r) (fpOfInt Config.fmt ((k.val : Int) + 2)),
    fpAddCond Config.fmt rest fresh,
    fpOfIntCond Config.fmt 2,
    fpDivCond Config.fmt (fpAdd Config.fmt rest fresh) (fpOfInt Config.fmt 2) ]

end Sys2Proof.Machine
end

