-- ==== Sys2Proof/Machine/Commands.lean ====
section
/-! DEFINITION. The meaning of each command (41_accumulator R122, R123, R128, R129). -/

namespace Sys2Proof.Machine

/-- `IDLE`: no register is read or written; ⊥ stays ⊥ (41_accumulator R128). -/
def execIdle (s : State) : Host.Outcome State Fault Refusal := .next s

/-- `INIT`: the state of 10_state R35, from every state, ⊥ among them; no draw (41_accumulator R122). -/
def execInit (s : State) : Host.Outcome State Fault Refusal := .next (initRegs s)

/-- `NEXT`: `Uninitialised` in ⊥, else one sample (41_accumulator R123). -/
def execNext (s : State) : Host.Outcome State Fault Refusal :=
  if s.init then .next (produceSample s) else faultUninitialised s

/-- The reserved encoding: refused in every state, ⊥ among them (41_accumulator R129). -/
def execRsvd (s : State) : Host.Outcome State Fault Refusal := refuseReserved (encode .rsvd) s

end Sys2Proof.Machine
end

