-- ==== Sys2Proof/Machine/Cycle.lean ====
section
/-! DEFINITION. One step for a given port value (60_exceptions R155, 70_reset R171, R175), and commands
performed one after another (20_memory R57). -/

namespace Sys2Proof.Machine

/-- One atomic step in which the ports carry `p`. `RST` comes first and ignores `CMD`; else the
command is decoded and performed (60_exceptions R155). A step that completes is counted. -/
def stepOn (p : Port) (s : State) : Host.Outcome State Fault Refusal :=
  if p.rst then .next (tick (initRegs s))
  else onNext (exec (decodeCmd p.cmd) s) fun t => .next (tick t)

/-- Put one more value on the ports, ahead of those already there. -/
def presentPort (p : Port) (s : State) : State := { s with ports := p :: s.ports }

/-- Commands performed in the order given, up to the first stop (20_memory R57, 60_exceptions R152). -/
def execAll : List Instr → State → Host.Outcome State Fault Refusal
  | [], s => .next s
  | i :: is, s => onNext (exec i s) (execAll is)

end Sys2Proof.Machine
end

