-- ==== Sys2Proof/Machine/Step.lean ====
section
/-! DEFINITION. The step of the machine, on what its ports carry. The block fetches nothing
(10_state R30): the next command is the next value on its ports. -/

namespace Sys2Proof.Machine

/-- One step (70_reset R175). -/
def step (s : State) : Host.Outcome State Fault Refusal := stepOn (portNow s) s

/-- The state with the command word `w` on the port in the next step, `RST` not asserted; the port has
two bits, so only the low two bits of `w` fit on it. -/
def State.withFetchWord (s : State) (_nbits w : Nat) : State :=
  presentPort ⟨BitVec.ofNat 2 w, false⟩ s

end Sys2Proof.Machine
end

