-- ==== Sys2Proof/Machine/Run.lean ====
section
/-! DEFINITION. Runs and what is observed of them (70_reset R179), with the mark that a fault or a refusal
leaves for the rest of the run (60_exceptions R150 to R152). -/

namespace Sys2Proof.Machine

/-- The recorded reason of a stopped run (60_exceptions R152). -/
inductive Mark where
  | faulted (r : Fault)
  | refused (r : Refusal)
  deriving DecidableEq, Repr

/-- A run so far: the state it holds, the samples its `NEXT` steps produced, oldest first, and the
recorded stop if there is one. These three are its observation (70_reset R179). -/
structure Run where
  state   : State
  samples : List Fp
  mark    : Option Mark
  deriving DecidableEq, Repr

/-- Whether the next step is a `NEXT` that returns a sample when it completes (41_accumulator R123). -/
def returnsSample (s : State) : Bool :=
  !(portNow s).rst && decide (decodeCmd (portNow s).cmd = .next)

/-- One more step of a run. A stop leaves the state unchanged and is recorded; once one is recorded no
further step follows, and nothing clears it (60_exceptions R150 to R152). -/
def runStep (r : Run) : Run :=
  match r.mark with
  | some _ => r
  | none =>
    match step r.state with
    | .next t =>
      { state := t
        samples := if returnsSample r.state then r.samples ++ [t.SAMPLE] else r.samples
        mark := none }
    | .fault e => { r with mark := some (.faulted e) }
    | .refused e => { r with mark := some (.refused e) }

/-- `n` more steps of a run. -/
def runFor : Nat → Run → Run
  | 0, r => r
  | n + 1, r => runFor n (runStep r)

/-- A run that starts in `s` with the port values `ps` to come. -/
def startRun (s : State) (ps : List Port) : Run :=
  { state := { s with ports := ps }, samples := [], mark := none }

/-- The run over all the port values `ps`: it ends after its last step (70_reset R179). -/
def observe (s : State) (ps : List Port) : Run := runFor ps.length (startRun s ps)

/-- The final state of a run, which a faulted or refused run does not have (60_exceptions R152). -/
def finalState (r : Run) : Option State :=
  match r.mark with
  | none => some r.state
  | some _ => none

end Sys2Proof.Machine
end

