-- ==== Sys2Proof/Machine/Instances.lean ====
section
/-! DEFINITION. Several instances side by side: any number, each with its own state, ports and run, and
none of them shares anything with another (20_memory R59, 60_exceptions R163). What a host reads from an
instance still in the no-value state is one free value for all of them (notes/assumptions/13.md). -/

namespace Sys2Proof.Machine

/-- A step of instance `i`; a stop of one instance is no stop of another. -/
def stepInstance (i : Nat) (sys : List Run) : List Run := sys.modify i runStep

end Sys2Proof.Machine
end

