-- ==== Sys2Proof/Machine/Listing.lean ====
section
/-! DEFINITION. The command-listing syntax and its pseudo-instructions (30_encoding R78, R79): from the
characters of a listing to the port values of its steps. -/

namespace Sys2Proof.Machine

/-- Why an assembler refuses a listing. -/
inductive ListingError where
  /-- A line holds something that is no item of 30_encoding R78 or R79. -/
  | unknownItem
  /-- `NEXT*0` or `IDLE*0` (30_encoding R79). -/
  | zeroRepeat
  deriving DecidableEq, Repr

/-- How a listing spells a command (30_encoding R78). -/
def mnemonic : Instr → List Char
  | .idle => ['I', 'D', 'L', 'E']
  | .init => ['I', 'N', 'I', 'T']
  | .next => ['N', 'E', 'X', 'T']
  | .rsvd => ['R', 'S', 'V', 'D']

/-- The command a mnemonic spells; upper case only (30_encoding R78). -/
def parseMnemonic (cs : List Char) : Option Instr :=
  if cs = mnemonic .idle then some .idle
  else if cs = mnemonic .init then some .init
  else if cs = mnemonic .next then some .next
  else if cs = mnemonic .rsvd then some .rsvd
  else none

/-- The value of a decimal digit. -/
def digitValue (c : Char) : Option Nat :=
  if '0'.toNat ≤ c.toNat ∧ c.toNat ≤ '9'.toNat then some (c.toNat - '0'.toNat) else none

/-- Digits read on from a value. -/
def readDigits : Nat → List Char → Option Nat
  | n, [] => some n
  | n, c :: cs =>
    match digitValue c with
    | some d => readDigits (10 * n + d) cs
    | none => none

/-- A decimal literal: at least one digit (30_encoding R79). -/
def parseDecimal : List Char → Option Nat
  | [] => none
  | c :: cs => readDigits 0 (c :: cs)

/-- The text of a line before its comment (30_encoding R78). -/
def dropComment (line : List Char) : List Char := line.takeWhile fun c => c ≠ ';'

/-- Spaces, tabs and carriage returns stand for nothing at either end of a line
(notes/assumptions/8.md). -/
def isBlank (c : Char) : Bool := c = ' ' || c = '\t' || c = '\r'

/-- A line without blanks at its ends. -/
def trimBlanks (line : List Char) : List Char :=
  ((line.dropWhile isBlank).reverse.dropWhile isBlank).reverse

/-- One item, from a line with no comment and no blanks around it. -/
def parseItem (cs : List Char) : Except ListingError Item :=
  match parseMnemonic cs with
  | some i => .ok (.cmd i)
  | none =>
    if cs = ['R', 'E', 'S', 'E', 'T'] then .ok .reset
    else if cs.take 5 = mnemonic .next ++ ['*'] then
      match parseDecimal (cs.drop 5) with
      | some k => if k = 0 then .error .zeroRepeat else .ok (.nextTimes k)
      | none => .error .unknownItem
    else if cs.take 5 = mnemonic .idle ++ ['*'] then
      match parseDecimal (cs.drop 5) with
      | some k => if k = 0 then .error .zeroRepeat else .ok (.idleTimes k)
      | none => .error .unknownItem
    else .error .unknownItem

/-- A text cut at its line ends; `line` holds the characters of the line so far, last first. -/
def splitLines (line : List Char) : List Char → List (List Char)
  | [] => [line.reverse]
  | c :: cs => if c = '\n' then line.reverse :: splitLines [] cs else splitLines (c :: line) cs

/-- The items of lines, one to a line; a line that holds nothing but blanks and comment has none
(notes/assumptions/8.md). -/
def parseLines : List (List Char) → Except ListingError (List Item)
  | [] => .ok []
  | line :: rest =>
    let body := trimBlanks (dropComment line)
    if body = [] then parseLines rest
    else
      match parseItem body with
      | .error e => .error e
      | .ok it =>
        match parseLines rest with
        | .error e => .error e
        | .ok its => .ok (it :: its)

/-- The items of a listing (30_encoding R78). -/
def parseListing (text : List Char) : Except ListingError (List Item) :=
  parseLines (splitLines [] text)

/-- The port values of an item, one per step; a pseudo-instruction expands to its copies, and a repeat
of zero is refused (30_encoding R78, R79). -/
def expandItem : Item → Except ListingError (List Port)
  | .cmd i => .ok [cmdPort i]
  | .reset => .ok [⟨encode .idle, true⟩]
  | .nextTimes k => if k = 0 then .error .zeroRepeat else .ok (List.replicate k (cmdPort .next))
  | .idleTimes k => if k = 0 then .error .zeroRepeat else .ok (List.replicate k (cmdPort .idle))

/-- The port values of a list of items. -/
def expandItems : List Item → Except ListingError (List Port)
  | [] => .ok []
  | it :: its =>
    match expandItem it with
    | .error e => .error e
    | .ok ps =>
      match expandItems its with
      | .error e => .error e
      | .ok qs => .ok (ps ++ qs)

/-- From a listing's text to the port values of its steps. -/
def assemble (text : List Char) : Except ListingError (List Port) :=
  match parseListing text with
  | .error e => .error e
  | .ok its => expandItems its

/-- The encoding of a listing: the `op` values in listing order, one per step (30_encoding R78). -/
def listingOps (ps : List Port) : List U2 := ps.map fun p => p.cmd

/-- A binary digit. -/
def bitChar (b : Bool) : Char := if b then '1' else '0'

/-- The encoding written as binary digit pairs, for example `01 10` (30_encoding R78). -/
def renderOps : List U2 → List Char
  | [] => []
  | [w] => [bitChar (w.getLsbD 1), bitChar (w.getLsbD 0)]
  | w :: v :: ws => bitChar (w.getLsbD 1) :: bitChar (w.getLsbD 0) :: ' ' :: renderOps (v :: ws)

end Sys2Proof.Machine
end

