-- ==== Sys2Proof/Safety.lean ====
section
/-! DEFINITION. What counts as a safe run, the host's duties (60_exceptions R160, 70_reset R173), and the
relations and invariants that claims are stated in. -/

namespace Sys2Proof.Machine

/-- Whether the host may put `p` on the ports in this state: `RST` and `IDLE` and `INIT` at any step,
`NEXT` once initialised, and without `RST` never `11` (60_exceptions R160). DESIGN CHOICE: a step with
`RST` asserted breaks no duty whatever `CMD` carries, `11` among it, where the spec leaves open whether
"never issue it" forbids that too (notes/assumptions/15.md). -/
def hostMay (p : Port) (s : State) : Bool :=
  p.rst ||
  match decodeCmd p.cmd with
  | .idle => true
  | .init => true
  | .next => s.init
  | .rsvd => false

/-- The host keeps its duties in the next step. -/
def dutyKept (s : State) : Bool := hostMay (portNow s) s

/-- A run with no fault and no refusal recorded, the premise of every claim about a run
(60_exceptions R152). -/
def safeRun (r : Run) : Bool := decide (r.mark = none)

/-- The registers, and whether they hold a value: everything but the ports to come and the step count. -/
abbrev SameRegs (s t : State) : Prop :=
  s.init = t.init ∧ s.S = t.S ∧ s.X = t.X ∧ s.W = t.W ∧ s.CNT = t.CNT ∧ s.OUT = t.OUT ∧
    s.HOLD = t.HOLD ∧ s.SAMPLE = t.SAMPLE

/-- A pattern that is no negative zero, and is a multiple of `g` quanta if it is finite
(41_accumulator R132, R133). -/
abbrev OnGrid (g : Int) (b : Fp) : Prop :=
  b ≠ fpPack Config.fmt true 0 ∧ (fpFinite Config.fmt b = true → g ∣ fpValue Config.fmt b)

/-- The largest magnitude slot `k` may hold, in quanta: `1 ⊘ f(k + 2)` (41_accumulator R131). -/
def slotCap (k : Fin 9) : Int :=
  fpValue Config.fmt (rescaled Config.fmt k (fpOfInt Config.fmt 1))

/-- What a slot holds: a finite multiple of 2^-58, zero or at least 2^-35 in magnitude, at most
`1 ⊘ f(k + 2)`, never negative zero (41_accumulator R131 to R133; 2^-149 is one quantum). -/
abbrev SlotOk (k : Fin 9) (b : Fp) : Prop :=
  fpFinite Config.fmt b = true ∧ OnGrid (2 ^ 91) b ∧
    (fpValue Config.fmt b ≠ 0 → 2 ^ 114 ≤ (fpValue Config.fmt b).natAbs) ∧
    ((fpValue Config.fmt b).natAbs : Int) ≤ slotCap k

/-- The invariant of an initialised block: `S` is the seed, every slot is as it must be, `OUT` is a
multiple of 2^-58 if finite and no negative zero, and `SAMPLE` is `OUT ⊘ f(2)`
(10_state R21, R27, 41_accumulator R131 to R133). -/
abbrev State.Inv (s : State) : Prop :=
  s.init = true →
    s.S = Config.seed ∧ (∀ k : Fin 9, SlotOk k (readHold s k)) ∧ OnGrid (2 ^ 91) s.OUT ∧
      s.SAMPLE = halved Config.fmt s.OUT

/-- The exact sum of the slots, in quanta (41_accumulator R130). -/
def holdSum (s : State) : Int := ∑ k : Fin 9, fpValue Config.fmt (readHold s k)

/-- The drift bound after `n` samples: `OUT` is finite, below 4 in magnitude, and within `n · 2^-22` of
the exact sum of the slots (41_accumulator R131). -/
abbrev DriftOk (n : Nat) (s : State) : Prop :=
  fpFinite Config.fmt s.OUT = true ∧ (fpValue Config.fmt s.OUT).natAbs < 2 ^ 151 ∧
    (fpValue Config.fmt s.OUT - holdSum s).natAbs ≤ n * 2 ^ 127

/-- `v`, the rounding of a value of sign `neg` and magnitude `num / den` quanta, is finite below the
overflow bound and infinity of that sign from the bound on. -/
def OverflowsFromBound (f : Format) (v : BitVec f.width) (neg : Bool) (num den : Nat) : Prop :=
  (num < fpOverflowBound f * den → fpFinite f v = true) ∧
    (fpOverflowBound f * den ≤ num → v = fpPack f neg (fpInfMag f))

/-- `v` is the correctly rounded value of `num / den` quanta: no finite value is nearer, and of two
that are equally near it is the one with the even significand. -/
def IsNearestEven (f : Format) (v : BitVec f.width) (num : Int) (den : Nat) : Prop :=
  ∀ c : BitVec f.width, fpFinite f c = true →
    |fpValue f v * den - num| ≤ |fpValue f c * den - num| ∧
      (|fpValue f v * den - num| = |fpValue f c * den - num| → fpValue f c ≠ fpValue f v →
        v.toNat % 2 = 0)

end Sys2Proof.Machine
end

