-- ==== Sys2Proof/Certificates/Slice0/Obligations.lean ====
section
/-! DEFINITION. The statements for the provers, from the spec's numbered rules. -/

open Sys2Proof Sys2Proof.Machine

/-! ### Encoding -/

/-- The four command words, read and written (30_encoding R73). -/
def Obligations.CommandWordsOfTheTable : Prop :=
  (decodeCmd 0b00#2 = .idle ∧ decodeCmd 0b01#2 = .init ∧ decodeCmd 0b10#2 = .next ∧
    decodeCmd 0b11#2 = .rsvd) ∧
  (encode .idle = 0b00#2 ∧ encode .init = 0b01#2 ∧ encode .next = 0b10#2 ∧ encode .rsvd = 0b11#2)

/-- Decoding and encoding undo each other, on every command and on every word (30_encoding R73, R77). -/
def Obligations.DecodeAndEncodeAgree : Prop :=
  (∀ i : Instr, i.wf = true ∧ decodeCmd (encode i) = i) ∧ ∀ w : U2, encode (decodeCmd w) = w

/-- A number is read as a command word exactly when it is given as at least two bits and no bit above
bit 1 is set. The rejection is the model's choice (notes/assumptions/7.md). -/
def Obligations.TableWordIsTwoBits : Prop :=
  ∀ nbits w : Nat,
    (2 ≤ nbits ∧ w < 4 → decodeTableWord nbits w = some (decodeCmd (BitVec.ofNat 2 w))) ∧
    (nbits < 2 ∨ 4 ≤ w → decodeTableWord nbits w = none)

/-! ### The step -/

/-- A step without `RST` performs the decoded command; around it the step uses up the port value and
counts itself (20_memory R57, 70_reset R175; the port list is the model's, notes/assumptions/1.md). -/
def Obligations.StepRunsTheDecodedCommand : Prop :=
  ∀ s : State, (portNow s).rst = false →
    step s = onNext (exec (decodeCmd (portNow s).cmd) s)
      (fun t => .next { t with ports := t.ports.tail, steps := t.steps + 1 })

/-- A command word put on the port is performed by the very next step, on the registers as they are. -/
def Obligations.PresentedWordIsPerformedNext : Prop :=
  ∀ (s : State) (nbits w : Nat), w < 4 →
    step (s.withFetchWord nbits w) =
      onNext (exec (decodeCmd (BitVec.ofNat 2 w)) (s.withFetchWord nbits w))
        (fun t => .next { t with ports := t.ports.tail, steps := t.steps + 1 }) ∧
    (s.withFetchWord nbits w).ports.tail = s.ports ∧ SameRegs (s.withFetchWord nbits w) s

/-- Reset takes precedence over the command, whatever it is, leaves every register at its reset value and
ends ⊥, which is the effect of `INIT` (70_reset R170, R171, 10_state R35). -/
def Obligations.ResetTakesPrecedence : Prop :=
  ∀ s : State, (portNow s).rst = true →
    step s = .next
      { init := true, S := 0x2252E7CD98846FDD#64, X := 0, W := 0, CNT := 0, OUT := 0x00000000#32,
        HOLD := Vector.replicate 9 0x00000000#32, SAMPLE := 0x00000000#32,
        ports := s.ports.tail, steps := s.steps + 1 } ∧
    ∃ t, exec .init s = .next t ∧
      step s = .next { t with ports := t.ports.tail, steps := t.steps + 1 }

/-- The priority within one step (60_exceptions R155): reset, then the reserved word, then the
uninitialised state, then the command's rule. -/
def Obligations.PriorityWithinOneStep : Prop :=
  ∀ s : State,
    ((portNow s).rst = true → step s = .next (tick (initRegs s))) ∧
    ((portNow s).rst = false → (portNow s).cmd = 0b11#2 →
      step s = .refused (.reservedCommand 0b11#2 (s.steps + 1))) ∧
    ((portNow s).rst = false → (portNow s).cmd = 0b10#2 → s.init = false →
      step s = .fault (.uninitialised (s.steps + 1))) ∧
    ((portNow s).rst = false → (portNow s).cmd ≠ 0b11#2 →
      ¬((portNow s).cmd = 0b10#2 ∧ s.init = false) →
      ∃ t, exec (decodeCmd (portNow s).cmd) s = .next t ∧ step s = .next (tick t))

/-- A step has one of three outcomes (60_exceptions R153). -/
def Obligations.OutcomesAreClosed : Prop :=
  ∀ s : State,
    (∃ t, step s = .next t) ∨ step s = .fault (.uninitialised (s.steps + 1)) ∨
      step s = .refused (.reservedCommand 0b11#2 (s.steps + 1))

/-- A step completes exactly when the host keeps its duties in it (60_exceptions R160). That `11` beside an
asserted `RST` counts as keeping them is the MODEL's choice (notes/assumptions/15.md); that such a step
completes is the spec's (60_exceptions R155). -/
def Obligations.StepCompletesIffDutiesAreKept : Prop :=
  ∀ s : State, (∃ t, step s = .next t) ↔
    ((portNow s).rst = true ∨
      ((portNow s).cmd ≠ 0b11#2 ∧ ((portNow s).cmd = 0b10#2 → s.init = true)))

/-! ### Reset and power-up -/

/-- The value of every register in the state after reset, and the same after a step with `RST` and after
`INIT`, in any state (10_state R35). -/
def Obligations.ResetValues : Prop :=
  (State.reset.init = true ∧ State.reset.S = 0x2252E7CD98846FDD#64 ∧ State.reset.X = 0#64 ∧
    State.reset.W = 0#64 ∧ State.reset.CNT = 0x00#8 ∧ State.reset.OUT = 0x00000000#32 ∧
    (∀ k : Fin 9, readHold State.reset k = 0x00000000#32) ∧ State.reset.SAMPLE = 0x00000000#32) ∧
  ∀ s : State, (∃ t, exec .init s = .next t ∧ SameRegs t State.reset) ∧
    ((portNow s).rst = true → ∃ t, step s = .next t ∧ SameRegs t State.reset)

/-- At power-up the block is in ⊥: `NEXT` faults at step 1, the reserved word is refused at step 1,
`IDLE` leaves ⊥, `INIT` ends it (10_state R36, 60_exceptions R151, R155, 41_accumulator R122, R128). -/
def Obligations.PowerUpBehaviour : Prop :=
  exec .next State.powerOn = .fault (.uninitialised 1) ∧
    exec .rsvd State.powerOn = .refused (.reservedCommand 0b11#2 1) ∧
    exec .idle State.powerOn = .next State.powerOn ∧ State.powerOn.init = false ∧
    ∃ t, exec .init State.powerOn = .next t ∧ SameRegs t State.reset

/-! ### Commands: completion and result -/

/-- `IDLE` completes in every state and changes nothing (41_accumulator R128). -/
def Obligations.IdleChangesNothing : Prop :=
  ∀ s : State, exec .idle s = .next s

/-- `INIT` completes in every state and writes every register (41_accumulator R122). -/
def Obligations.InitWritesEveryRegister : Prop :=
  ∀ s : State, exec .init s = .next
    { init := true, S := 0x2252E7CD98846FDD#64, X := 0, W := 0, CNT := 0, OUT := 0x00000000#32,
      HOLD := Vector.replicate 9 0x00000000#32, SAMPLE := 0x00000000#32,
      ports := s.ports, steps := s.steps }

/-- `INIT` twice is `INIT` once, and an `IDLE` between them changes nothing (the spec's own inference from
41_accumulator R122: "`INIT` is idempotent: two `INIT`s in a row leave the same state as one"). -/
def Obligations.InitIsIdempotent : Prop :=
  ∀ s : State, execAll [.init, .init] s = exec .init s ∧ execAll [.init, .idle, .init] s = exec .init s

/-- The reserved word is refused in every state, ⊥ among them, and the run is marked refused with its
state unchanged, unless `RST` is asserted in the step (41_accumulator R129). -/
def Obligations.ReservedWordIsRefused : Prop :=
  ∀ s : State,
    exec .rsvd s = .refused (.reservedCommand 0b11#2 (s.steps + 1)) ∧
    ((portNow s).cmd = 0b11#2 →
      ((portNow s).rst = false → step s = .refused (.reservedCommand 0b11#2 (s.steps + 1))) ∧
      ((portNow s).rst = true → ∃ t, step s = .next t)) ∧
    ∀ r : Run, r.state = s → r.mark = none → (portNow s).cmd = 0b11#2 → (portNow s).rst = false →
      runStep r = { r with mark := some (.refused (.reservedCommand 0b11#2 (s.steps + 1))) }

/-- `NEXT` completes in every initialised state, and the next state is the pseudocode's; in ⊥ it faults
(41_accumulator R123, R124). -/
def Obligations.NextProducesTheSample : Prop :=
  ∀ s : State,
    (s.init = true →
      let k := tz8 s.CNT
      let w1 := s.W + s.S
      let x3 := rot32 (s.X * s.X + w1)
      let r := sint32 (x3.extractLsb' 0 32)
      let v := fpDiv Config.fmt (fpOfInt Config.fmt r) (fpOfInt Config.fmt 2147483647)
      let h := fpDiv Config.fmt v (fpOfInt Config.fmt (k.val + 2))
      let out := fpAdd Config.fmt (fpSub Config.fmt s.OUT s.HOLD[k]) h
      exec .next s = .next
        { s with
          X := x3, W := w1, CNT := s.CNT + 1, OUT := out, HOLD := s.HOLD.set k h,
          SAMPLE := fpDiv Config.fmt out (fpOfInt Config.fmt 2) }) ∧
    (s.init = false → exec .next s = .fault (.uninitialised (s.steps + 1)))

/-- What a command that completes leaves unchanged (10_state R29): nothing but `INIT` writes `S` or ends
⊥, `NEXT` writes one slot, `IDLE` writes nothing, and no command touches the ports or the count. -/
def Obligations.CommandFrames : Prop :=
  ∀ (i : Instr) (s t : State), exec i s = .next t →
    t.ports = s.ports ∧ t.steps = s.steps ∧
    (i ≠ .init → t.init = s.init ∧ t.S = s.S) ∧
    (i ≠ .init → ∀ j : Fin 9, (i = .next → j ≠ tz8 s.CNT) → readHold t j = readHold s j) ∧
    (i = .idle → SameRegs t s)

/-- What `NEXT` reads (10_state R29): two initialised states that agree on `S`, `X`, `W`, `CNT`, `OUT` and
the selected slot get the same values in every register that `NEXT` writes, whatever else they hold. -/
def Obligations.NextDependsOnlyOnWhatItReads : Prop :=
  ∀ s t : State, s.init = true → t.init = true → s.S = t.S → s.X = t.X → s.W = t.W → s.CNT = t.CNT →
    s.OUT = t.OUT → readHold s (tz8 s.CNT) = readHold t (tz8 t.CNT) →
    ∃ s' t', exec .next s = .next s' ∧ exec .next t = .next t' ∧ s'.X = t'.X ∧ s'.W = t'.W ∧
      s'.CNT = t'.CNT ∧ s'.OUT = t'.OUT ∧ s'.SAMPLE = t'.SAMPLE ∧
      readHold s' (tz8 s.CNT) = readHold t' (tz8 t.CNT)

/-! ### The generator -/

/-- One draw in whole numbers: square, add and swap the halves, all modulo 2^64, and read the low 32 bits
of the new `X` as a signed number; nothing but `X` and `W` changes (40_prng R101, R102). -/
def Obligations.DrawInWholeNumbers : Prop :=
  ∀ s : State,
    let x1 := s.X.toNat * s.X.toNat % 2 ^ 64
    let w1 := (s.W.toNat + s.S.toNat) % 2 ^ 64
    let x2 := (x1 + w1) % 2 ^ 64
    let x3 := x2 % 2 ^ 32 * 2 ^ 32 + x2 / 2 ^ 32
    (draw s).1 = { s with X := BitVec.ofNat 64 x3, W := BitVec.ofNat 64 w1 } ∧
    (draw s).1.X.toNat = x3 ∧ (draw s).1.W.toNat = w1 ∧
    (draw s).2 = if x3 % 2 ^ 32 < 2 ^ 31 then ((x3 % 2 ^ 32 : Nat) : Int)
      else ((x3 % 2 ^ 32 : Nat) : Int) - 2 ^ 32

/-- A draw is a function of `S`, `X` and `W` alone (40_prng R100, R103: "DRAW is a function of
(`S`, `X`, `W`) alone"). -/
def Obligations.DrawDependsOnTheGeneratorAlone : Prop :=
  ∀ s t : State, s.S = t.S → s.X = t.X → s.W = t.W →
    (draw s).2 = (draw t).2 ∧ (draw s).1.X = (draw t).1.X ∧ (draw s).1.W = (draw t).1.W

/-! ### The octave selector -/

/-- The selector: the spec's 256 entries row by row, how often each value stands in the table, and the
equivalent reading as the least set bit (41_accumulator R120). -/
def Obligations.SelectorTable : Prop :=
  (∀ c : U8, (tz8 c).val =
    if c.toNat % 16 = 0 then
      [8, 4, 5, 4, 6, 4, 5, 4, 7, 4, 5, 4, 6, 4, 5, 4].getD (c.toNat / 16) 0
    else [0, 0, 1, 0, 2, 0, 1, 0, 3, 0, 1, 0, 2, 0, 1, 0].getD (c.toNat % 16) 0) ∧
  (∀ k : Fin 9, ((List.range 256).filter fun c => tz8 (BitVec.ofNat 8 c) = k).length =
    [128, 64, 32, 16, 8, 4, 2, 1, 1].getD k.val 0) ∧
  ∀ c : U8, (∀ i : Fin 8, (tz8 c).val = i.val ↔
      c.getLsbD i.val = true ∧ ∀ j : Fin 8, j.val < i.val → c.getLsbD j.val = false) ∧
    ((tz8 c).val = 8 ↔ ∀ j : Fin 8, c.getLsbD j.val = false)

/-- The cadence, the spec's own inference from R120 and R123 (41_accumulator section 1: "Every window of
`2^(k+1)` consecutive `NEXT` commands refreshes slot `k` (`k ≤ 7`) exactly once"): slot `k ≤ 7` is selected
at the counters congruent to `2^k` modulo `2^(k+1)`, slot 8 at 0 alone; and from every initialised state
every window of `2^(k+1)` `NEXT`s, of 256 for slot 8, selects slot `k` exactly once. -/
def Obligations.RefreshCadence : Prop :=
  (∀ (c : U8) (k : Fin 9), tz8 c = k ↔
    if k.val = 8 then c.toNat = 0 else c.toNat % 2 ^ (k.val + 1) = 2 ^ k.val) ∧
  ∀ s : State, s.init = true → ∀ k : Fin 9,
    ∃! n, n < (if k.val = 8 then 256 else 2 ^ (k.val + 1)) ∧
      ∃ t, execAll (List.replicate n .next) s = .next t ∧ octave t = k

/-- After `INIT` and `n` `NEXT`s: `CNT = n mod 256`, `W = n · S mod 2^64`, and `S` is the seed. The two
counts are the spec's own inferences ("So after `n` draws since the last reset or `INIT`,
`W = (n · S) mod 2^64`", 10_state R23, and R24 of `CNT`). -/
def Obligations.CounterAndWeylAfterNexts : Prop :=
  ∀ (s : State) (n : Nat), ∃ t, execAll (.init :: List.replicate n .next) s = .next t ∧
    t.CNT.toNat = n % 256 ∧ t.W.toNat = n * 0x2252E7CD98846FDD % 2 ^ 64 ∧
    t.S = 0x2252E7CD98846FDD#64 ∧ t.init = true

/-! ### Float arithmetic -/

/-- `f`, `⊕`, `⊖` and `⊘` round to nearest, ties to even, in both formats of the spec (00_scope R8). -/
def Obligations.OperationsRoundToNearestEven : Prop :=
  ∀ f : Format, f = Format.binary32 ∨ f = Format.binary64 →
    (∀ n : Int, fpFinite f (fpOfInt f n) = true →
      IsNearestEven f (fpOfInt f n) (n * fpUnit f) 1) ∧
    ∀ a b : BitVec f.width, fpFinite f a = true → fpFinite f b = true →
      (fpFinite f (fpAdd f a b) = true → IsNearestEven f (fpAdd f a b) (fpValue f a + fpValue f b) 1) ∧
      (fpFinite f (fpSub f a b) = true → IsNearestEven f (fpSub f a b) (fpValue f a - fpValue f b) 1) ∧
      (fpValue f b ≠ 0 → fpFinite f (fpDiv f a b) = true →
        IsNearestEven f (fpDiv f a b) (fpValue f a * fpUnit f * (fpValue f b).sign)
          (fpValue f b).natAbs)

/-- Overflow (41_accumulator R131, IEEE's rule, notes/assumptions/6.md): a sum of finite values is
infinite, with the sign of the exact sum, exactly when the exact sum reaches the midpoint between the
largest finite value and the next one there would be. -/
def Obligations.SumOverflowsToInfinity : Prop :=
  ∀ a b : Fp, fpFinite Config.fmt a = true → fpFinite Config.fmt b = true →
    let x := fpValue Config.fmt a + fpValue Config.fmt b
    ((2 ^ 25 - 1) * 2 ^ 252 ≤ |x| →
      fpAdd Config.fmt a b = fpPack Config.fmt (decide (x < 0)) (fpInfMag Config.fmt)) ∧
    (|x| < (2 ^ 25 - 1) * 2 ^ 252 → fpFinite Config.fmt (fpAdd Config.fmt a b) = true)

/-- In both formats of the spec an operation with a NaN operand, infinity less infinity, infinity by
infinity and 0/0 give a NaN, whichever NaN the free value picks (notes/assumptions/4.md and 6.md; the
rules of the special values are IEEE's). -/
def Obligations.InvalidOperationsGiveNan : Prop :=
  ∀ f : Format, f = Format.binary32 ∨ f = Format.binary64 → ∀ a b : BitVec f.width,
    (fpUnpack f a = .nan ∨ fpUnpack f b = .nan →
      fpUnpack f (fpAdd f a b) = .nan ∧ fpUnpack f (fpSub f a b) = .nan ∧
      fpUnpack f (fpDiv f a b) = .nan) ∧
    (∀ s, fpUnpack f a = .inf s → fpUnpack f b = .inf s → fpUnpack f (fpSub f a b) = .nan) ∧
    (∀ s, fpUnpack f a = .inf s → fpUnpack f b = .inf (!s) → fpUnpack f (fpAdd f a b) = .nan) ∧
    (∀ s t, fpUnpack f a = .inf s → fpUnpack f b = .inf t → fpUnpack f (fpDiv f a b) = .nan) ∧
    (∀ s t, fpUnpack f a = .fin s 0 → fpUnpack f b = .fin t 0 → fpUnpack f (fpDiv f a b) = .nan)

/-- The signed-zero rules, which the spec takes from general knowledge (41_accumulator R132: "`a ⊖ b` is
−0.0 only when `a = −0.0` and `b = +0.0`, and `a ⊕ b` is −0.0 only when both are −0.0";
notes/assumptions/6.md). -/
def Obligations.NegativeZeroSums : Prop :=
  ∀ a b : Fp,
    (fpAdd Config.fmt a b = 0x80000000#32 ↔ a = 0x80000000#32 ∧ b = 0x80000000#32) ∧
    (fpSub Config.fmt a b = 0x80000000#32 ↔ a = 0x80000000#32 ∧ b = 0x00000000#32)

/-- The unscaled value in binary32, the spec's own inference (41_accumulator R125: "So the unscaled value
is `f(r) · 2^−31`, and the division is exact"): the divisor is 2^31, the result lies in [-1, 1], is exact
from the draw up to 2^24, and is exactly ±1 from 2147483584 on. -/
def Obligations.UnscaledValueOfADraw : Prop :=
  fpOfInt Config.fmt 2147483647 = 0x4F000000#32 ∧
  ∀ r : Int, -2 ^ 31 ≤ r → r < 2 ^ 31 →
    fpFinite Config.fmt (unscaled Config.fmt r) = true ∧
    fpValue Config.fmt (unscaled Config.fmt r) * 2 ^ 31 = fpValue Config.fmt (fpOfInt Config.fmt r) ∧
    |fpValue Config.fmt (unscaled Config.fmt r)| ≤ fpUnit Config.fmt ∧
    (|r| ≤ 2 ^ 24 → fpValue Config.fmt (unscaled Config.fmt r) * 2 ^ 31 = r * fpUnit Config.fmt) ∧
    (r = 0 → unscaled Config.fmt r = 0x00000000#32) ∧
    (2147483584 ≤ r → unscaled Config.fmt r = 0x3F800000#32) ∧
    (r ≤ -2147483584 → unscaled Config.fmt r = 0xBF800000#32)

/-- The rescaler's exactness in binary32, the spec's own inference (41_accumulator R126: "The division is
exact when `k + 2` is a power of two"): the divisors 2 to 10 are exact, and the division of an unscaled
value is exact for the slots 0, 2 and 6. -/
def Obligations.RescalerDivisors : Prop :=
  ∀ k : Fin 9,
    fpValue Config.fmt (fpOfInt Config.fmt (k.val + 2)) = (k.val + 2) * fpUnit Config.fmt ∧
    ∀ r : Int, -2 ^ 31 ≤ r → r < 2 ^ 31 → k = 0 ∨ k = 2 ∨ k = 6 →
      fpValue Config.fmt (newHold Config.fmt k r) * (k.val + 2) =
        fpValue Config.fmt (unscaled Config.fmt r)

/-- What a refreshed slot holds, whatever is drawn: finite, a multiple of 2^-58, zero or at least 2^-35
in magnitude, at most `1 ⊘ f(k + 2)`, no negative zero. These are inferences of the spec's own
(41_accumulator R131 to R133: "Every scaled `HOLD[k]` is 0 or has magnitude at least 2^−35"). -/
def Obligations.RefreshedSlotRange : Prop :=
  ∀ (k : Fin 9) (r : Int), -2 ^ 31 ≤ r → r < 2 ^ 31 → SlotOk k (newHold Config.fmt k r)

/-! ### Invariants -/

/-- The invariant holds after reset and at power-up (derived from 10_state R35 and R36; the invariant is
the model's, put together from the spec's inferences in 41_accumulator section 4). -/
def Obligations.InvariantHoldsAtReset : Prop :=
  State.reset.Inv ∧ State.powerOn.Inv

/-- Every step keeps the invariant: `S` the seed, every slot finite, bounded and on its grid, `OUT` and
the slots never negative zero, `SAMPLE = OUT ⊘ f(2)`. It rests on the spec's own inferences
(41_accumulator R131 to R133: "So by induction no step produces −0.0") beside 10_state R21 and R27. -/
def Obligations.EveryStepKeepsTheInvariant : Prop :=
  ∀ s t : State, s.Inv → step s = .next t → t.Inv

/-- `SAMPLE` is never negative zero, and is exactly half of a finite `OUT`: the spec's own inferences
(41_accumulator R132, R133: "`SAMPLE` is exactly half of `OUT`"). -/
def Obligations.SampleIsExactlyHalf : Prop :=
  ∀ s : State, s.Inv → s.init = true →
    s.SAMPLE ≠ 0x80000000#32 ∧
    (fpFinite Config.fmt s.OUT = true →
      fpFinite Config.fmt s.SAMPLE = true ∧
        2 * fpValue Config.fmt s.SAMPLE = fpValue Config.fmt s.OUT)

/-- In a `NEXT` from a state of the invariant no operation divides by zero and none underflows: the spec's
own inference (10_state R31, 41_accumulator R133; tininess as in notes/assumptions/6.md). -/
def Obligations.NoDivisionByZeroNoUnderflow : Prop :=
  ∀ s : State, s.Inv → s.init = true →
    ∀ c ∈ nextConds s, c.divByZero = false ∧ c.underflow = false

/-- The running sum, the spec's own inference (41_accumulator R130: "each `NEXT` subtracts the old
`HOLD[k]` and adds the new one"): a `NEXT` whose `⊖` and `⊕` are exact keeps the difference between `OUT`
and the sum of the slots. -/
def Obligations.ExactSumsKeepTheRunningSum : Prop :=
  ∀ s t : State, s.Inv → fpFinite Config.fmt s.OUT = true → exec .next s = .next t →
    (fpSubCond Config.fmt s.OUT (readHold s (octave s))).inexact = false →
    (fpAddCond Config.fmt (fpSub Config.fmt s.OUT (readHold s (octave s)))
      (readHold t (octave s))).inexact = false →
    fpValue Config.fmt t.OUT - holdSum t = fpValue Config.fmt s.OUT - holdSum s

/-- Within the first 2^23 `NEXT`s after `INIT`, from any state: the drift is at most `n · 2^-22`, `|OUT|`
is below 4, every register is finite, and no operation of a `NEXT` overflows or is invalid: the spec's own
inference (41_accumulator R131: "Within the first 2^23 `NEXT`s after a reset or `INIT`, the drift is at
most 2 and `|OUT| < 4`"; 10_state R31). -/
def Obligations.DriftWithinTheFirstNexts : Prop :=
  ∀ (s : State) (n : Nat), n ≤ 2 ^ 23 →
    ∃ t, execAll (.init :: List.replicate n .next) s = .next t ∧ DriftOk n t ∧
      (∀ k : Fin 9, fpFinite Config.fmt (readHold t k) = true) ∧
      fpFinite Config.fmt t.SAMPLE = true ∧
      (n < 2 ^ 23 → ∀ c ∈ nextConds t, c.overflow = false ∧ c.invalid = false)

/-! ### Runs -/

/-- A recorded fault or refusal holds for the rest of the run, nothing follows it, and the run has no
final state (60_exceptions R152). -/
def Obligations.RecordedStopHolds : Prop :=
  ∀ (r : Run) (m : Mark) (n : Nat), r.mark = some m → runFor n r = r ∧ finalState r = none

/-- The two stops are recorded with their codes, the command bits and the step number, leave the state
unchanged, and the mark holds for the rest of the run (60_exceptions R150, R151). -/
def Obligations.StopsAreRecorded : Prop :=
  ∀ r : Run, r.mark = none → (portNow r.state).rst = false →
    ((portNow r.state).cmd = 0b11#2 →
      runStep r = { r with mark := some (.refused (.reservedCommand 0b11#2 (r.state.steps + 1))) } ∧
      reasonCode (step r.state) = some 1 ∧ ∀ n, runFor n (runStep r) = runStep r) ∧
    ((portNow r.state).cmd = 0b10#2 → r.state.init = false →
      runStep r = { r with mark := some (.faulted (.uninitialised (r.state.steps + 1))) } ∧
      reasonCode (step r.state) = some 2 ∧ ∀ n, runFor n (runStep r) = runStep r)

/-- Steps of the machine over commands on its ports are the commands performed in order
(20_memory R57, 30_encoding R70). -/
def Obligations.StepsPerformTheCommandsInOrder : Prop :=
  ∀ (is : List Instr) (s t : State) (rest : List Port), execAll is s = .next t →
    Host.Core.run Sys2Proof.core is.length { s with ports := is.map cmdPort ++ rest } =
      .next { t with ports := rest, steps := s.steps + is.length }

/-- `IDLE` cannot be told from its absence: taking every idle step out of a run leaves the samples, the
registers and whether it stopped (41_accumulator R128). -/
def Obligations.IdleStepsAreInvisible : Prop :=
  ∀ (s : State) (ps : List Port),
    let a := observe s ps
    let b := observe s (ps.filter fun p => p ≠ idlePort)
    a.samples = b.samples ∧ SameRegs a.state b.state ∧ a.mark.isSome = b.mark.isSome

/-- Re-initialisation, the spec's own inference (41_accumulator R136: "So every later `SAMPLE` equals
that of a block freshly reset"; 70_reset R174): after `INIT` in any state, every run observes what it
observes after reset. -/
def Obligations.InitIsIndistinguishableFromReset : Prop :=
  ∀ (s t : State) (ps : List Port), exec .init s = .next t →
    let a := observe t ps
    let b := observe State.reset ps
    a.samples = b.samples ∧ SameRegs a.state b.state ∧ a.mark.isSome = b.mark.isSome

/-- Determinism, the spec's own inference (41_accumulator R135: "Two instances give bit-identical
sequences"): two blocks initialised from any states give the same `n` samples
for `n` `NEXT`s, with nothing recorded. -/
def Obligations.SamplesAreAFunctionOfTheCount : Prop :=
  ∀ (s t : State) (n : Nat),
    let ps := cmdPort .init :: List.replicate n (cmdPort .next)
    (observe s ps).samples = (observe t ps).samples ∧
      (observe s ps).samples.length = n ∧ (observe s ps).mark = none

/-- What the host reads (10_state R27, 20_memory R54): after `NEXT` its result, after `INIT` zero, and
after `IDLE` in an initialised state what it read before, for the command and for a whole step of the
machine. Of a read in ⊥ nothing is said (10_state R36). -/
def Obligations.HostReadsTheResult : Prop :=
  (∀ s t : State, exec .next s = .next t →
    readSample t = fpDiv Config.fmt t.OUT (fpOfInt Config.fmt 2)) ∧
  (∀ s t : State, exec .init s = .next t → readSample t = 0x00000000#32) ∧
  (∀ s t : State, s.init = true → exec .idle s = .next t → readSample t = readSample s) ∧
  (∀ s t : State, s.init = true → (portNow s).rst = false → decodeCmd (portNow s).cmd = .idle →
    step s = .next t → readSample t = readSample s)

/-- Instances share nothing (20_memory R59, 60_exceptions R163): a step of one leaves the others, and
steps of two of them can be exchanged. -/
def Obligations.InstancesAreIndependent : Prop :=
  ∀ (sys : List Run) (i j : Nat), i ≠ j →
    (stepInstance i sys)[j]? = sys[j]? ∧
    (stepInstance i sys)[i]? = sys[i]?.map runStep ∧
    stepInstance i (stepInstance j sys) = stepInstance j (stepInstance i sys)

/-! ### Listings -/

/-- Pseudo-instructions (30_encoding R79): `k` copies, and a repeat of zero is not valid. -/
def Obligations.PseudoInstructionsExpand : Prop :=
  (∀ k : Nat, 1 ≤ k →
    expandItem (.nextTimes k) = .ok (List.replicate k ⟨0b10#2, false⟩) ∧
    expandItem (.idleTimes k) = .ok (List.replicate k ⟨0b00#2, false⟩)) ∧
  expandItem (.nextTimes 0) = .error .zeroRepeat ∧ expandItem (.idleTimes 0) = .error .zeroRepeat ∧
  assemble "NEXT*0".toList = .error .zeroRepeat ∧ assemble "IDLE*0".toList = .error .zeroRepeat ∧
  ∀ it : Item, it.wf = true ↔ ∃ ps, expandItem it = .ok ps

/-- A listing of mnemonics, each on a line that ends in a line end, assembles to its commands, one to a
step (30_encoding R78). That the empty last line after the last line end holds no item, so that the text
assembles, the empty text for no commands among them, is the MODEL's choice (notes/assumptions/8.md). -/
def Obligations.MnemonicListingsAssemble : Prop :=
  ∀ is : List Instr,
    assemble (is.flatMap fun i => mnemonic i ++ ['\n']) = .ok (is.map cmdPort)

/-! ### Float arithmetic: finiteness and the special values -/

/-- When a result is finite and when it is infinity, in both formats, for the conversion, `⊕`, `⊖` and `⊘`
(00_scope R8; the overflow rule is IEEE's, notes/assumptions/6.md). -/
def Obligations.ResultsOverflowFromTheMidpoint : Prop :=
  ∀ f : Format, f = Format.binary32 ∨ f = Format.binary64 →
    (∀ n : Int, OverflowsFromBound f (fpOfInt f n) (decide (n < 0)) (n.natAbs * fpUnit f) 1) ∧
    (∀ (neg : Bool) (num den : Nat), 0 < den →
      OverflowsFromBound f (fpOfRatio f neg num den) neg (num * fpUnit f) den) ∧
    ∀ a b : BitVec f.width, fpFinite f a = true → fpFinite f b = true →
      OverflowsFromBound f (fpAdd f a b) (decide (fpValue f a + fpValue f b < 0))
        (fpValue f a + fpValue f b).natAbs 1 ∧
      OverflowsFromBound f (fpSub f a b) (decide (fpValue f a - fpValue f b < 0))
        (fpValue f a - fpValue f b).natAbs 1 ∧
      (fpValue f b ≠ 0 → OverflowsFromBound f (fpDiv f a b)
        (decide (fpValue f a < 0) ^^ decide (fpValue f b < 0))
        ((fpValue f a).natAbs * fpUnit f) (fpValue f b).natAbs)

/-- `f` of a rational rounds to nearest, ties to even, in both formats (00_scope R8: "converts an exact
integer or rational `n` to `FMT`"). -/
def Obligations.RationalsRoundToNearestEven : Prop :=
  ∀ f : Format, f = Format.binary32 ∨ f = Format.binary64 →
    ∀ (neg : Bool) (num den : Nat), 0 < den → fpFinite f (fpOfRatio f neg num den) = true →
      IsNearestEven f (fpOfRatio f neg num den) (fpSigned neg (num * fpUnit f)) den

/-- The special cases that give no NaN, in both formats: infinity with a finite operand, infinities of one
sign added, division by infinity, by zero and of zero (IEEE's, notes/assumptions/6.md). -/
def Obligations.InfinityAndZeroArithmetic : Prop :=
  ∀ f : Format, f = Format.binary32 ∨ f = Format.binary64 →
    ∀ (a b : BitVec f.width) (s t : Bool),
      (∀ n, fpUnpack f a = .inf s → fpUnpack f b = .fin t n →
        fpAdd f a b = fpPack f s (fpInfMag f) ∧ fpSub f a b = fpPack f s (fpInfMag f) ∧
        fpDiv f a b = fpPack f (s ^^ t) (fpInfMag f)) ∧
      (∀ m, fpUnpack f a = .fin s m → fpUnpack f b = .inf t →
        fpAdd f a b = fpPack f t (fpInfMag f) ∧ fpSub f a b = fpPack f (!t) (fpInfMag f) ∧
        fpDiv f a b = fpPack f (s ^^ t) 0) ∧
      (fpUnpack f a = .inf s → fpUnpack f b = .inf s → fpAdd f a b = fpPack f s (fpInfMag f)) ∧
      (fpUnpack f a = .inf s → fpUnpack f b = .inf (!s) → fpSub f a b = fpPack f s (fpInfMag f)) ∧
      (∀ m, m ≠ 0 → fpUnpack f a = .fin s m → fpUnpack f b = .fin t 0 →
        fpDiv f a b = fpPack f (s ^^ t) (fpInfMag f)) ∧
      (∀ n, n ≠ 0 → fpUnpack f a = .fin s 0 → fpUnpack f b = .fin t n →
        fpDiv f a b = fpPack f (s ^^ t) 0)

/-! ### The drift bound, step by step -/

/-- Every step from an initialised state of the invariant keeps the drift bound, with one more `NEXT`
allowed for, within the first 2^23: the spec's own inference (41_accumulator R131: "So each `NEXT` adds at
most 2^−22 to `|OUT − Σ HOLD[k]|`"). -/
def Obligations.EveryStepKeepsTheDriftBound : Prop :=
  ∀ (s t : State) (n : Nat), s.Inv → s.init = true → DriftOk n s → n < 2 ^ 23 →
    (exec .next s = .next t → t.Inv ∧ t.init = true ∧ DriftOk (n + 1) t) ∧
    (step s = .next t → t.Inv ∧ t.init = true ∧ DriftOk (n + 1) t)

/-- The drift bound holds with no `NEXT` performed, after reset and after `INIT` in any state (derived from
10_state R35 and 41_accumulator R130: "where both sides are 0"). -/
def Obligations.DriftBoundHoldsAtReset : Prop :=
  DriftOk 0 State.reset ∧ ∀ s t : State, exec .init s = .next t → DriftOk 0 t
end

