-- ==== Sys2Proof/Laws/Float.lean ====
section
/-! SUPPORT. What the float operations do: reading back what was packed, the value a rounding delivers,
its error, its monotonicity and its exactness on what the format holds. The operations are cited
through these lemmas and not unfolded. -/

namespace Sys2Proof.Machine

/-! ### `nearestEven` -/

theorem nearestEven_bounds {num den : Nat} (hd : 0 < den) :
    2 * num ≤ 2 * (nearestEven num den * den) + den ∧
      2 * (nearestEven num den * den) ≤ 2 * num + den := by
  have h := Nat.div_add_mod num den
  have hr := Nat.mod_lt num hd
  rw [Nat.mul_comm] at h
  unfold nearestEven
  generalize num / den = q at *
  generalize num % den = r at *
  dsimp only
  split
  · omega
  · split
    · rw [Nat.add_mul]; omega
    · have : q % 2 = 0 ∨ q % 2 = 1 := by omega
      rcases this with h0 | h0 <;> rw [h0, Nat.add_mul] <;> omega

theorem nearestEven_ge (num den : Nat) : num / den ≤ nearestEven num den := by
  unfold nearestEven; dsimp only; split
  · exact Nat.le_refl _
  · split <;> omega

theorem nearestEven_le (num den : Nat) : nearestEven num den ≤ num / den + 1 := by
  unfold nearestEven; dsimp only; split
  · omega
  · split <;> omega

theorem nearestEven_mul (q : Nat) {den : Nat} (hd : 0 < den) : nearestEven (q * den) den = q := by
  simp [nearestEven, Nat.mul_div_cancel q hd, hd]

theorem nearestEven_mono {num den num' den' : Nat} (hd : 0 < den) (hd' : 0 < den')
    (h : num * den' ≤ num' * den) : nearestEven num den ≤ nearestEven num' den' := by
  have hq : num / den ≤ num' / den' := by
    rw [Nat.le_div_iff_mul_le hd']
    have h1 : num / den * den ≤ num := Nat.div_mul_le_self num den
    have h2 : num / den * den * den' ≤ num * den' := Nat.mul_le_mul_right _ h1
    have h3 : num / den * den' * den ≤ num' * den := by nlinarith
    exact Nat.le_of_mul_le_mul_right h3 hd
  rcases Nat.lt_or_eq_of_le hq with hlt | heq
  · exact (nearestEven_le num den).trans (Nat.succ_le_of_lt (hlt.trans_le (nearestEven_ge num' den')))
  · have e1 := Nat.div_add_mod num den
    have e2 := Nat.div_add_mod num' den'
    have r1 := Nat.mod_lt num hd
    have r2 := Nat.mod_lt num' hd'
    rw [← heq] at e2
    have hr : num % den * den' ≤ num' % den' * den := by
      have : (den * (num / den) + num % den) * den' ≤ (den' * (num / den) + num' % den') * den := by
        rw [e1, e2]; exact h
      nlinarith
    unfold nearestEven
    rw [← heq]
    generalize num / den = q at *
    generalize num % den = r at *
    generalize num' % den' = r' at *
    dsimp only
    have hlt : den < 2 * r → den' < 2 * r' := fun hh => by
      by_contra hc
      have h1 : 2 * r' * den ≤ den' * den := Nat.mul_le_mul_right _ (by omega)
      have h2 : den * den' < 2 * r * den' := (Nat.mul_lt_mul_right hd').2 hh
      nlinarith
    have hge : 2 * r' < den' → 2 * r < den := fun hh => by
      by_contra hc
      have h1 : den * den' ≤ 2 * r * den' := Nat.mul_le_mul_right _ (by omega)
      have h2 : 2 * r' * den < den' * den := (Nat.mul_lt_mul_right hd).2 hh
      nlinarith
    split <;> split <;> (try split) <;> (try split) <;> omega

/-- No whole number is nearer to `n / d`, and of two equally near ones the even one is taken. -/
theorem nearestEven_nearest (n d j : Nat) (hd : 0 < d) :
    |(nearestEven n d : Int) * d - n| ≤ |(j : Int) * d - n| ∧
      (|(nearestEven n d : Int) * d - n| = |(j : Int) * d - n| → j ≠ nearestEven n d →
        nearestEven n d % 2 = 0) := by
  have h := Nat.div_add_mod n d
  have hr := Nat.mod_lt n hd
  unfold nearestEven
  generalize n / d = q at *
  generalize n % d = r at *
  dsimp only
  have hn : (n : Int) = d * q + r := by exact_mod_cast h.symm
  have key : ∀ j : Int, (j ≤ q → |j * d - n| = d * (q - j) + r) ∧
      (q + 1 ≤ j → |j * d - n| = d * (j - q) - r) := by
    intro j
    constructor
    · intro hj
      have : 0 ≤ (d:Int) * (q - j) := by nlinarith
      rw [abs_of_nonpos] <;> rw [hn] <;> nlinarith
    · intro hj
      have : (d:Int) ≤ (d:Int) * (j - q) := by nlinarith
      rw [abs_of_nonneg] <;> rw [hn] <;> nlinarith
  have hq0 := (key q).1 (le_refl _)
  have hq1 := (key (q+1)).2 (le_refl _)
  have hj : (j:Int) < q ∨ (j:Int) = q ∨ (j:Int) = q + 1 ∨ (q:Int) + 1 < j := by omega
  have hjlt : (j:Int) < q → (d:Int) ≤ d * (q - j) := fun h => by nlinarith
  have hjgt : (q:Int) + 1 < j → 2 * (d:Int) ≤ d * (j - q) := fun h => by nlinarith
  have hj1 := (key j).1
  have hj2 := (key j).2
  have hrI : (r:Int) < d := by exact_mod_cast hr
  rw [show (d:Int) * (q - q) + r = r by ring] at hq0
  rw [show (d:Int) * (q + 1 - q) - r = d - r by ring] at hq1
  generalize hdj : (d:Int) * (q - j) = D at *
  have hD : (d:Int) * (j - q) = -D := by rw [← hdj]; ring
  rw [hD] at hjgt hj2
  split
  · rw [hq0]
    rcases hj with h | h | h | h
    · have := hjlt h; rw [hj1 (by omega)]; omega
    · rw [h, hq0]; omega
    · rw [h, hq1]; omega
    · have := hjgt h; rw [hj2 (by omega)]; omega
  · split
    · push_cast; rw [hq1]
      rcases hj with h | h | h | h
      · have := hjlt h; rw [hj1 (by omega)]; omega
      · rw [h, hq0]; omega
      · rw [h, hq1]; omega
      · have := hjgt h; rw [hj2 (by omega)]; omega
    · refine ⟨?_, fun _ _ => by omega⟩
      have hcase : q % 2 = 0 ∨ q % 2 = 1 := by omega
      have hval : |((q + q % 2 : Nat) : Int) * d - n| = r := by
        rcases hcase with hc | hc <;> rw [hc] <;> push_cast
        · rw [add_zero, hq0]
        · rw [hq1]; omega
      rw [hval]
      · rcases hj with h | h | h | h
        · have := hjlt h; rw [hj1 (by omega)]; omega
        · rw [h, hq0]
        · rw [h, hq1]; omega
        · have := hjgt h; rw [hj2 (by omega)]; omega

/-! ### Magnitudes and quanta -/

/-- The quanta of a magnitude built from an exponent and a significand, carry included. -/
theorem fpQuanta_mk (f : Format) {e q : Nat} (hlo : e = 0 ∨ 2 ^ f.fracBits ≤ q)
    (hhi : q ≤ 2 * 2 ^ f.fracBits) : fpQuanta f (e * 2 ^ f.fracBits + q) = q * 2 ^ e := by
  have hP : 0 < 2 ^ f.fracBits := Nat.two_pow_pos _
  unfold fpQuanta
  generalize 2 ^ f.fracBits = P at *
  rcases Nat.lt_or_ge q P with h | h
  · obtain rfl : e = 0 := by omega
    simp [Nat.div_eq_of_lt h]
  · rcases Nat.lt_or_ge q (2 * P) with h2 | h2
    · have hd : (e * P + q) / P = e + 1 := by
        rw [Nat.div_eq_iff hP, Nat.add_mul]; omega
      have hm : (e * P + q) % P = q - P := by
        have := Nat.div_add_mod (e * P + q) P
        rw [hd, Nat.mul_add, Nat.mul_comm] at this
        omega
      rw [hd, hm, if_neg (by omega)]
      congr 1
      omega
    · obtain rfl : q = 2 * P := by omega
      have hd : (e * P + 2 * P) / P = e + 2 := by
        rw [← Nat.add_mul, Nat.mul_div_cancel _ hP]
      have hm : (e * P + 2 * P) % P = 0 := by
        rw [← Nat.add_mul, Nat.mul_mod_left]
      rw [hd, hm, if_neg (by omega)]
      rw [show e + 2 - 1 = e + 1 from rfl, Nat.pow_succ]
      ring

/-- Every magnitude is an exponent and a significand of `fracBits + 1` bits. -/
theorem mag_split (f : Format) (mag : Nat) : ∃ e q, mag = e * 2 ^ f.fracBits + q ∧
    (e = 0 ∨ 2 ^ f.fracBits ≤ q) ∧ q < 2 * 2 ^ f.fracBits := by
  have hP : 0 < 2 ^ f.fracBits := Nat.two_pow_pos _
  generalize 2 ^ f.fracBits = P at *
  have h := Nat.div_add_mod mag P
  have hm := Nat.mod_lt mag hP
  rcases Nat.eq_zero_or_pos (mag / P) with h0 | h0
  · exact ⟨0, mag, by simp, .inl rfl, by rw [h0] at h; omega⟩
  · refine ⟨mag / P - 1, P + mag % P, ?_, .inr (by omega), by omega⟩
    obtain ⟨d, hd⟩ := Nat.exists_eq_add_of_lt h0
    rw [hd] at h ⊢
    simp only [Nat.zero_add, Nat.add_sub_cancel] at h ⊢
    nlinarith

theorem fpQuanta_pos (f : Format) {mag : Nat} (h : 0 < mag) : 0 < fpQuanta f mag := by
  unfold fpQuanta
  split
  · exact h
  · have := Nat.two_pow_pos f.fracBits
    positivity

@[simp] theorem fpQuanta_zero (f : Format) : fpQuanta f 0 = 0 := by simp [fpQuanta]

/-! ### The exponent of the rounding step -/

/-- An exact value reaches the least significand of its step, unless it is among the subnormals. -/
theorem stepExp_lower (f : Format) {num den : Nat} (he : fpStepExp f num den ≠ 0) :
    2 ^ f.fracBits ≤ num / (den * 2 ^ fpStepExp f num den) := by
  unfold fpStepExp at *
  have hN : num / den ≠ 0 := by
    intro h; rw [h] at he; simp at he
  have h := Nat.log2_self_le hN
  rw [← Nat.div_div_eq_div_mul, Nat.le_div_iff_mul_le (Nat.two_pow_pos _), ← Nat.pow_add]
  rwa [show f.fracBits + ((num / den).log2 - f.fracBits) = (num / den).log2 by omega]

/-- An exact value is below twice the least normal significand of its step. -/
theorem stepExp_upper (f : Format) (num den : Nat) :
    num / (den * 2 ^ fpStepExp f num den) < 2 * 2 ^ f.fracBits := by
  unfold fpStepExp
  rw [← Nat.div_div_eq_div_mul, Nat.div_lt_iff_lt_mul (Nat.two_pow_pos _)]
  have h := Nat.lt_log2_self (n := num / den)
  refine h.trans_le ?_
  rw [← Nat.pow_succ', ← Nat.pow_add]
  exact Nat.pow_le_pow_right (by decide) (by omega)

theorem stepExp_mono (f : Format) {num den num' den' : Nat} (hd : 0 < den) (hd' : 0 < den')
    (h : num * den' ≤ num' * den) : fpStepExp f num den ≤ fpStepExp f num' den' := by
  have hq : num / den ≤ num' / den' := by
    rw [Nat.le_div_iff_mul_le hd']
    have h1 : num / den * den ≤ num := Nat.div_mul_le_self num den
    have h2 : num / den * den * den' ≤ num * den' := Nat.mul_le_mul_right _ h1
    have h3 : num / den * den' * den ≤ num' * den := by nlinarith
    exact Nat.le_of_mul_le_mul_right h3 hd
  unfold fpStepExp
  have : (num / den).log2 ≤ (num' / den').log2 := by
    rcases Nat.eq_zero_or_pos (num / den) with h0 | h0
    · simp [h0]
    · rw [Nat.le_log2 (by omega)]
      exact (Nat.log2_self_le (by omega)).trans hq
  omega

/-! ### Rounding -/

/-- The significand a rounding delivers is one the format has, carry included. -/
theorem roundSig_bounds (f : Format) (num den : Nat) :
    (fpStepExp f num den = 0 ∨
        2 ^ f.fracBits ≤ nearestEven num (den * 2 ^ fpStepExp f num den)) ∧
      nearestEven num (den * 2 ^ fpStepExp f num den) ≤ 2 * 2 ^ f.fracBits := by
  constructor
  · rcases Nat.eq_zero_or_pos (fpStepExp f num den) with h | h
    · exact .inl h
    · exact .inr ((stepExp_lower f (by omega)).trans (nearestEven_ge _ _))
  · have h1 := stepExp_upper f num den
    have h2 := nearestEven_le num (den * 2 ^ fpStepExp f num den)
    omega

theorem roundMag_le (f : Format) (num den : Nat) : fpRoundMag f num den ≤ fpInfMag f :=
  Nat.min_le_right _ _

/-- The value a rounding delivers, when it is finite: the exact value to the nearest multiple of its
step, ties to even. -/
theorem quanta_roundMag (f : Format) {num den : Nat}
    (hfin : fpRoundMag f num den < fpInfMag f) :
    fpQuanta f (fpRoundMag f num den) =
      nearestEven num (den * 2 ^ fpStepExp f num den) * 2 ^ fpStepExp f num den := by
  obtain ⟨h1, h2⟩ := roundSig_bounds f num den
  unfold fpRoundMag at *
  rw [Nat.min_eq_left (by dsimp only at hfin; omega)]
  exact fpQuanta_mk f h1 h2

/-- The error of a finite rounding is at most half its step. -/
theorem roundMag_error (f : Format) {num den : Nat} (hd : 0 < den)
    (hfin : fpRoundMag f num den < fpInfMag f) :
    2 * num ≤ 2 * (fpQuanta f (fpRoundMag f num den) * den) + den * 2 ^ fpStepExp f num den ∧
      2 * (fpQuanta f (fpRoundMag f num den) * den) ≤ 2 * num + den * 2 ^ fpStepExp f num den := by
  rw [quanta_roundMag f hfin]
  have h := nearestEven_bounds (num := num) (den := den * 2 ^ fpStepExp f num den)
    (Nat.mul_pos hd (Nat.two_pow_pos _))
  generalize nearestEven num (den * 2 ^ fpStepExp f num den) = q at *
  generalize 2 ^ fpStepExp f num den = E at *
  rw [show q * E * den = q * (den * E) by ring]
  exact h

/-- Rounding keeps the order of exact values. -/
theorem roundMag_mono (f : Format) {num den num' den' : Nat} (hd : 0 < den) (hd' : 0 < den')
    (h : num * den' ≤ num' * den) : fpRoundMag f num den ≤ fpRoundMag f num' den' := by
  have he := stepExp_mono f hd hd' h
  obtain ⟨-, hu⟩ := roundSig_bounds f num den
  obtain ⟨hl, -⟩ := roundSig_bounds f num' den'
  unfold fpRoundMag
  dsimp only
  refine Nat.le_min.2 ⟨(Nat.min_le_left _ _).trans ?_, Nat.min_le_right _ _⟩
  rcases Nat.lt_or_eq_of_le he with hlt | heq
  · have hl : 2 ^ f.fracBits ≤ nearestEven num' (den' * 2 ^ fpStepExp f num' den') := by
      rcases hl with h0 | h0
      · omega
      · exact h0
    generalize nearestEven num (den * 2 ^ fpStepExp f num den) = q at *
    generalize nearestEven num' (den' * 2 ^ fpStepExp f num' den') = q' at *
    generalize fpStepExp f num den = e at *
    generalize fpStepExp f num' den' = e' at *
    obtain ⟨d, rfl⟩ := Nat.exists_eq_add_of_lt hlt
    generalize 2 ^ f.fracBits = P at *
    nlinarith
  · rw [heq]
    refine Nat.add_le_add_left (nearestEven_mono ?_ ?_ ?_) _
    · exact Nat.mul_pos hd (Nat.two_pow_pos _)
    · exact Nat.mul_pos hd' (Nat.two_pow_pos _)
    · generalize 2 ^ fpStepExp f num' den' = E at *
      calc num * (den' * E) = num * den' * E := by ring
        _ ≤ num' * den * E := Nat.mul_le_mul_right _ h
        _ = num' * (den * E) := by ring

/-- What the format holds is delivered unchanged. -/
theorem roundMag_exact (f : Format) {mag den : Nat} (hd : 0 < den) (h : mag ≤ fpInfMag f) :
    fpRoundMag f (fpQuanta f mag * den) den = mag := by
  obtain ⟨e, q, rfl, hlo, hhi⟩ := mag_split f mag
  rw [fpQuanta_mk f hlo (by omega)]
  have he : fpStepExp f (q * 2 ^ e * den) den = e := by
    unfold fpStepExp
    rw [Nat.mul_div_cancel _ hd]
    rcases hlo with rfl | hlo
    · simp only [pow_zero, Nat.mul_one]
      rcases Nat.eq_zero_or_pos q with rfl | hq
      · simp
      · have : q.log2 < f.fracBits + 1 := by
          rw [Nat.log2_lt (by omega), Nat.pow_succ]; omega
        omega
    · have hq : q ≠ 0 := by have := Nat.two_pow_pos f.fracBits; omega
      have : (q * 2 ^ e).log2 = f.fracBits + e := by
        rw [Nat.log2_eq_iff (by positivity)]
        constructor
        · rw [Nat.pow_add]; exact Nat.mul_le_mul_right _ hlo
        · rw [show f.fracBits + e + 1 = f.fracBits + 1 + e by omega, Nat.pow_add, Nat.pow_succ]
          exact (Nat.mul_lt_mul_right (Nat.two_pow_pos _)).2 (by omega)
      omega
  unfold fpRoundMag
  simp only [he]
  rw [show q * 2 ^ e * den = q * (den * 2 ^ e) by ring,
    nearestEven_mul q (Nat.mul_pos hd (Nat.two_pow_pos _))]
  exact Nat.min_eq_left h

/-- An exact integer that a power of two divides rounds to one that it divides. -/
theorem dvd_quanta_roundMag (f : Format) {j num : Nat} (hj : 2 ^ j ∣ num)
    (hfin : fpRoundMag f num 1 < fpInfMag f) : 2 ^ j ∣ fpQuanta f (fpRoundMag f num 1) := by
  rw [quanta_roundMag f hfin, Nat.one_mul]
  rcases Nat.le_total j (fpStepExp f num 1) with h | h
  · exact Dvd.dvd.mul_left (Nat.pow_dvd_pow 2 h) _
  · obtain ⟨q, hq⟩ := (Nat.pow_dvd_pow 2 h).trans hj
    have hn : nearestEven num (2 ^ fpStepExp f num 1) = q := by
      generalize fpStepExp f num 1 = e at hq
      rw [hq, Nat.mul_comm]
      exact nearestEven_mul q (Nat.two_pow_pos _)
    rwa [hn, Nat.mul_comm, ← hq]

theorem roundMag_zero (f : Format) (den : Nat) : fpRoundMag f 0 den = 0 := by
  simp [fpRoundMag, fpStepExp, nearestEven]

/-- A rounding of an integer other than zero is not zero: there is no underflow in a sum. -/
theorem roundMag_ne_zero (f : Format) {num : Nat} (h : num ≠ 0) (hinf : 0 < fpInfMag f) :
    fpRoundMag f num 1 ≠ 0 := by
  intro h0
  have := roundMag_mono f (num := 1) (num' := num) Nat.one_pos Nat.one_pos (by omega)
  have h1 : fpRoundMag f 1 1 = 1 := by
    have := roundMag_exact f (mag := 1) (den := 1) Nat.one_pos (by omega)
    rcases Nat.eq_zero_or_pos f.fracBits with hf | hf
    · simpa [fpQuanta, hf] using this
    · have h2 : 2 ≤ 2 ^ f.fracBits := by
        calc 2 = 2 ^ 1 := rfl
          _ ≤ 2 ^ f.fracBits := Nat.pow_le_pow_right (by decide) hf
      simpa [fpQuanta, Nat.div_eq_of_lt (show 1 < 2 ^ f.fracBits by omega)] using this
  omega

/-- Magnitudes in order are values in order. -/
theorem fpQuanta_strictMono (f : Format) : StrictMono (fpQuanta f) := by
  refine strictMono_nat_of_lt_succ fun mag => ?_
  obtain ⟨e, q, rfl, hlo, hhi⟩ := mag_split f mag
  rw [fpQuanta_mk f hlo (by omega), Nat.add_assoc, fpQuanta_mk f (by omega) (by omega)]
  exact (Nat.mul_lt_mul_right (Nat.two_pow_pos _)).2 (by omega)

/-- Exact values that are equal round alike. -/
theorem roundMag_congr (f : Format) {num den num' den' : Nat} (hd : 0 < den) (hd' : 0 < den')
    (h : num * den' = num' * den) : fpRoundMag f num den = fpRoundMag f num' den' :=
  le_antisymm (roundMag_mono f hd hd' h.le) (roundMag_mono f hd' hd h.ge)

/-- A value divided by a power of two, from one exponent to another: the quotient is exact as long as
it stays a normal value. -/
theorem roundMag_div_pow (f : Format) {mag j : Nat} (hmag : mag ≤ fpInfMag f)
    (h : (j + 1) * 2 ^ f.fracBits ≤ mag) :
    fpRoundMag f (fpQuanta f mag) (2 ^ j) = mag - j * 2 ^ f.fracBits ∧
      fpQuanta f (mag - j * 2 ^ f.fracBits) * 2 ^ j = fpQuanta f mag := by
  obtain ⟨e, q, rfl, hlo, hhi⟩ := mag_split f mag
  have hP : 0 < 2 ^ f.fracBits := Nat.two_pow_pos _
  have hj : j ≤ e := by
    by_contra hc
    have : (e + 1 + 1) * 2 ^ f.fracBits ≤ (j + 1) * 2 ^ f.fracBits := Nat.mul_le_mul_right _ (by omega)
    simp only [Nat.add_mul, Nat.one_mul] at *
    omega
  obtain ⟨d, rfl⟩ := Nat.exists_eq_add_of_le hj
  have hq : 2 ^ f.fracBits ≤ q := by
    rcases hlo with h0 | h0
    · simp only [Nat.add_mul, Nat.one_mul] at *
      obtain ⟨rfl, rfl⟩ : j = 0 ∧ d = 0 := by omega
      simpa using h
    · exact h0
  have hm : (j + d) * 2 ^ f.fracBits + q - j * 2 ^ f.fracBits = d * 2 ^ f.fracBits + q := by
    rw [Nat.add_mul]; omega
  have hQ : fpQuanta f ((j + d) * 2 ^ f.fracBits + q) =
      fpQuanta f (d * 2 ^ f.fracBits + q) * 2 ^ j := by
    rw [fpQuanta_mk f (.inr hq) (by omega), fpQuanta_mk f (.inr hq) (by omega), Nat.pow_add]
    ring
  rw [hm]
  refine ⟨?_, hQ.symm⟩
  rw [hQ]
  exact roundMag_exact f (Nat.two_pow_pos _) (by omega)

/-- The error of a finite rounding of an integer below `2 ^ (fracBits + 1 + j)` is at most half of
`2 ^ j` quanta. -/
theorem roundMag_error_of_lt (f : Format) {num j : Nat} (h : num < 2 ^ (f.fracBits + 1 + j))
    (hfin : fpRoundMag f num 1 < fpInfMag f) :
    2 * num ≤ 2 * fpQuanta f (fpRoundMag f num 1) + 2 ^ j ∧
      2 * fpQuanta f (fpRoundMag f num 1) ≤ 2 * num + 2 ^ j := by
  have he : 2 ^ fpStepExp f num 1 ≤ 2 ^ j := by
    refine Nat.pow_le_pow_right (by decide) ?_
    unfold fpStepExp
    rw [Nat.div_one]
    rcases Nat.eq_zero_or_pos num with rfl | hn
    · simp
    · have := (Nat.log2_lt (by omega)).2 h
      omega
  have := roundMag_error f Nat.one_pos hfin
  simp only [Nat.mul_one, Nat.one_mul] at this
  omega

/-- No magnitude of the format is nearer to `n / d` quanta, and of two equally near ones the even one is
taken. -/
theorem roundMag_nearest (f : Format) (hf : 1 ≤ f.fracBits) {n d : Nat} (hd : 0 < d)
    (hfin : fpRoundMag f n d < fpInfMag f) (m' : Nat) :
    |(fpQuanta f (fpRoundMag f n d) : Int) * d - n| ≤ |(fpQuanta f m' : Int) * d - n| ∧
    (|(fpQuanta f (fpRoundMag f n d) : Int) * d - n| = |(fpQuanta f m' : Int) * d - n| →
      fpQuanta f m' ≠ fpQuanta f (fpRoundMag f n d) → fpRoundMag f n d % 2 = 0) := by
  rw [quanta_roundMag f hfin]
  have hmag : fpRoundMag f n d =
      fpStepExp f n d * 2 ^ f.fracBits + nearestEven n (d * 2 ^ fpStepExp f n d) := by
    unfold fpRoundMag at hfin ⊢; dsimp only at hfin ⊢; omega
  have hpar : nearestEven n (d * 2 ^ fpStepExp f n d) % 2 = 0 → fpRoundMag f n d % 2 = 0 := by
    intro h; rw [hmag]
    obtain ⟨k, hk⟩ : ∃ k, f.fracBits = k + 1 := ⟨f.fracBits - 1, by omega⟩
    rw [hk, Nat.pow_succ, ← Nat.mul_assoc]; omega
  have hE : 0 < d * 2 ^ fpStepExp f n d := Nat.mul_pos hd (Nat.two_pow_pos _)
  have key (j : Nat) := nearestEven_nearest n (d * 2 ^ fpStepExp f n d) j hE
  have hlow := stepExp_lower f (num := n) (den := d)
  clear hmag hfin
  generalize fpRoundMag f n d = M at *
  generalize fpStepExp f n d = e at *
  generalize nearestEven n (d * 2 ^ e) = N at *
  push_cast at key ⊢
  have re (j : Int) : j * 2^e * d = j * (d * 2^e) := by ring
  rw [re]
  obtain ⟨e', q', rfl, h1, h2⟩ := mag_split f m'
  rw [fpQuanta_mk f h1 (by omega)]
  rcases Nat.le_total e e' with h | h
  · obtain ⟨c, rfl⟩ := Nat.exists_eq_add_of_le h
    have : ((q' * 2 ^ (e + c) : Nat) : Int) * d = ((q' * 2^c : Nat) : Int) * (d * 2^e) := by
      push_cast; rw [pow_add]; ring
    rw [this]
    obtain ⟨k1, k2⟩ := key (q' * 2^c)
    refine ⟨k1, fun a b => hpar (k2 a ?_)⟩
    rintro rfl; apply b; rw [Nat.pow_add]; ring
  · rcases Nat.eq_or_lt_of_le h with rfl | hlt
    · have : ((q' * 2 ^ e' : Nat) : Int) * d = (q' : Int) * (d * 2^e') := by push_cast; ring
      rw [this]
      obtain ⟨k1, k2⟩ := key q'
      exact ⟨k1, fun a b => hpar (k2 a (by rintro rfl; exact b rfl))⟩
    · have hl := hlow (by omega)
      have hPE : 2 ^ f.fracBits * (d * 2^e) ≤ n := (Nat.le_div_iff_mul_le hE).1 hl
      have hsm : q' * 2^e' < 2 ^ f.fracBits * 2 ^ e := by
        obtain ⟨c, rfl⟩ := Nat.exists_eq_add_of_lt hlt
        rw [show e' + c + 1 = e' + 1 + c by omega, Nat.pow_add, Nat.pow_succ]
        have : 1 ≤ 2^c := Nat.one_le_two_pow
        calc q' * 2^e' < 2 * 2 ^ f.fracBits * 2^e' := (Nat.mul_lt_mul_right (Nat.two_pow_pos _)).2 h2
          _ = 2 ^ f.fracBits * (2^e' * 2) * 1 := by ring
          _ ≤ 2 ^ f.fracBits * (2^e' * 2) * 2^c := Nat.mul_le_mul_left _ this
          _ = _ := by ring
      obtain ⟨k1, -⟩ := key (2 ^ f.fracBits)
      have hs : |((2 ^ f.fracBits : Nat) : Int) * (d * 2 ^ e) - n| < |((q' * 2 ^ e' : Nat) : Int) * d - n| := by
        have a1 : ((2 ^ f.fracBits : Nat) : Int) * (d * 2 ^ e) ≤ n := by exact_mod_cast hPE
        have a2 : ((q' * 2 ^ e' : Nat) : Int) * d < ((2 ^ f.fracBits : Nat) : Int) * (d * 2 ^ e) := by
          have : q' * 2^e' * d < 2 ^ f.fracBits * 2 ^ e * d := (Nat.mul_lt_mul_right hd).2 hsm
          have h3 : ((q' * 2^e' * d : Nat) : Int) < ((2 ^ f.fracBits * 2 ^ e * d : Nat) : Int) := by
            exact_mod_cast this
          push_cast at h3 ⊢; linarith
        rw [abs_of_nonpos (by linarith), abs_of_nonpos (by linarith)]; linarith
      exact ⟨(k1.trans_lt hs).le, fun a _ => absurd a (k1.trans_lt hs).ne⟩

/-- A rounding is finite exactly below the overflow bound. -/
theorem roundMag_lt_infMag_iff (f : Format) (hf : 2 ≤ f.expBits) {num den : Nat} (hd : 0 < den) :
    fpRoundMag f num den < fpInfMag f ↔ num < fpOverflowBound f * den := by
  have hP : 0 < 2 ^ f.fracBits := Nat.two_pow_pos _
  have hE : 2 ^ 2 ≤ 2 ^ f.expBits := Nat.pow_le_pow_right (by decide) hf
  obtain ⟨k, hk⟩ := Nat.exists_eq_add_of_le hE
  obtain ⟨hlo, hhi⟩ := roundSig_bounds f num den
  have hlow := stepExp_lower f (num := num) (den := den)
  have hup := stepExp_upper f num den
  have hbound : fpOverflowBound f = (4 * 2 ^ f.fracBits - 1) * 2 ^ k := by
    rw [fpOverflowBound, hk, Nat.pow_add, Nat.mul_comm (2 ^ f.fracBits), show 2 ^ 2 + k - 4 = k by omega]
  have hinf : fpInfMag f = (k + 3) * 2 ^ f.fracBits := by
    rw [fpInfMag, hk, show 2 ^ 2 + k - 1 = k + 3 by omega]
  have hmag : fpRoundMag f num den < fpInfMag f ↔
      fpStepExp f num den * 2 ^ f.fracBits + nearestEven num (den * 2 ^ fpStepExp f num den) <
        (k + 3) * 2 ^ f.fracBits := by
    unfold fpRoundMag; dsimp only; rw [hinf]; omega
  rw [hmag, hbound]
  generalize fpStepExp f num den = e at *
  generalize 2 ^ f.fracBits = P at *
  have hD : 0 < den * 2 ^ e := Nat.mul_pos hd (Nat.two_pow_pos _)
  rcases Nat.lt_trichotomy e (k + 1) with h | rfl | h
  · refine iff_of_true ?_ ?_
    · have := Nat.mul_le_mul_right P (show e + 1 ≤ k + 1 by omega)
      rw [Nat.add_mul] at this ⊢
      rw [Nat.add_mul] at this
      omega
    · have hn := (Nat.div_lt_iff_lt_mul hD).1 hup
      have h2 : 2 ^ e ≤ 2 ^ k := Nat.pow_le_pow_right (by decide) (by omega)
      calc num < 2 * P * (den * 2 ^ e) := hn
        _ ≤ (4 * P - 1) * (den * 2 ^ k) := Nat.mul_le_mul (by omega) (Nat.mul_le_mul_left _ h2)
        _ = (4 * P - 1) * 2 ^ k * den := by ring
  · rw [show (4 * P - 1) * 2 ^ k * den = (4 * P - 1) * (den * 2 ^ k) by ring]
    have hpow : den * 2 ^ (k + 1) = 2 * (den * 2 ^ k) := by rw [Nat.pow_succ]; ring
    rw [hpow] at hD ⊢
    clear hlo hhi hlow hup hmag
    generalize den * 2 ^ k = H at *
    rw [show (k + 3) * P = (k + 1) * P + 2 * P by ring, Nat.add_lt_add_iff_left]
    constructor
    · intro hlt
      by_contra hge
      refine absurd (nearestEven_mono (num := (4 * P - 1) * H) (den := 2 * H) (num' := num) hD hD
        (Nat.mul_le_mul_right _ (by omega))) ?_
      have htie : nearestEven ((4 * P - 1) * H) (2 * H) = 2 * P := by
        have e1 : (4 * P - 1) * H = H + 2 * H * (2 * P - 1) := by
          obtain ⟨p, rfl⟩ : ∃ p, P = p + 1 := ⟨P - 1, by omega⟩
          rw [show 4 * (p + 1) - 1 = 4 * p + 3 by omega, show 2 * (p + 1) - 1 = 2 * p + 1 by omega]
          ring
        unfold nearestEven
        dsimp only
        rw [e1, Nat.add_mul_div_left _ _ hD, Nat.add_mul_mod_self_left,
          Nat.div_eq_of_lt (by omega), Nat.mod_eq_of_lt (by omega)]
        rw [if_neg (by omega), if_neg (by omega)]
        omega
      omega
    · intro hlt
      by_contra hge
      have hb := (nearestEven_bounds (num := num) (den := 2 * H) hD).2
      have h1 : 2 * P * (2 * H) ≤ nearestEven num (2 * H) * (2 * H) :=
        Nat.mul_le_mul_right _ (by omega)
      have h2 : (4 * P - 1) * H + H = 2 * P * (2 * H) := by
        obtain ⟨p, rfl⟩ : ∃ p, P = p + 1 := ⟨P - 1, by omega⟩
        rw [show 4 * (p + 1) - 1 = 4 * p + 3 by omega]
        ring
      omega
  · refine iff_of_false ?_ ?_
    · have := Nat.mul_le_mul_right P (show k + 2 ≤ e by omega)
      rw [Nat.add_mul] at this ⊢
      omega
    · have hn := (Nat.le_div_iff_mul_le hD).1 (hlow (by omega))
      have h2 : 2 ^ (k + 2) ≤ 2 ^ e := Nat.pow_le_pow_right (by decide) (by omega)
      have : (4 * P - 1) * 2 ^ k * den ≤ num :=
        calc (4 * P - 1) * 2 ^ k * den ≤ 4 * P * 2 ^ k * den :=
              Nat.mul_le_mul_right _ (Nat.mul_le_mul_right _ (by omega))
          _ = P * (den * 2 ^ (k + 2)) := by rw [Nat.pow_add]; ring
          _ ≤ P * (den * 2 ^ e) := Nat.mul_le_mul_left _ (Nat.mul_le_mul_left _ h2)
          _ ≤ num := hn
      omega

/-! ### Reading and packing -/

theorem infMag_lt_signWeight (f : Format) : fpInfMag f < fpSignWeight f := by
  unfold fpInfMag fpSignWeight
  rw [Nat.pow_add]
  have := Nat.two_pow_pos f.expBits
  exact (Nat.mul_lt_mul_right (Nat.two_pow_pos _)).2 (by omega)

theorem toNat_fpPack (f : Format) (neg : Bool) {mag : Nat} (h : mag < fpSignWeight f) :
    (fpPack f neg mag).toNat = (if neg then fpSignWeight f else 0) + mag := by
  unfold fpPack
  rw [BitVec.toNat_ofNat, Nat.mod_eq_of_lt]
  have hw : 2 ^ f.width = 2 * fpSignWeight f := by
    unfold fpSignWeight; rw [Format.width, Nat.pow_succ, Nat.mul_comm]
  rw [hw]
  split <;> omega

theorem fpUnpack_fpPack_fin (f : Format) (neg : Bool) {mag : Nat} (h : mag < fpInfMag f) :
    fpUnpack f (fpPack f neg mag) = .fin neg (fpQuanta f mag) := by
  have hw := infMag_lt_signWeight f
  unfold fpUnpack
  rw [toNat_fpPack f neg (by omega)]
  cases neg
  · have : ¬ fpSignWeight f ≤ 0 + mag := by omega
    simp [Nat.mod_eq_of_lt (show mag < fpSignWeight f by omega), h]; omega
  · simp [Nat.mod_eq_of_lt (show mag < fpSignWeight f by omega), h]

theorem fpUnpack_fpPack_inf (f : Format) (neg : Bool) :
    fpUnpack f (fpPack f neg (fpInfMag f)) = .inf neg := by
  have hw := infMag_lt_signWeight f
  unfold fpUnpack
  rw [toNat_fpPack f neg hw]
  cases neg
  · simp [Nat.mod_eq_of_lt hw]; omega
  · simp [Nat.mod_eq_of_lt hw]

/-- A finite pattern is the packing of its sign and a finite magnitude. -/
theorem fpPack_of_fpUnpack (f : Format) {b : BitVec f.width} {s : Bool} {q : Nat}
    (h : fpUnpack f b = .fin s q) :
    ∃ mag, mag < fpInfMag f ∧ q = fpQuanta f mag ∧ b = fpPack f s mag := by
  have hw : 2 ^ f.width = 2 * fpSignWeight f := by
    unfold fpSignWeight; rw [Format.width, Nat.pow_succ, Nat.mul_comm]
  have hb := b.isLt
  have hi := infMag_lt_signWeight f
  rw [hw] at hb
  unfold fpUnpack at h
  dsimp only at h
  split at h
  · rename_i hm
    injection h with h1 h2
    refine ⟨_, hm, h2.symm, BitVec.eq_of_toNat_eq ?_⟩
    rw [toNat_fpPack f s (by omega), ← h1]
    by_cases hs : fpSignWeight f ≤ b.toNat
    · simp only [hs, decide_true, if_true]
      have := Nat.mod_eq_sub_mod hs
      rw [this, Nat.mod_eq_of_lt (by omega)]
      omega
    · simp only [hs, decide_false]
      rw [Nat.mod_eq_of_lt (by omega)]
      simp
  · split at h <;> cases h

@[simp] theorem fpFinite_fpPack (f : Format) (neg : Bool) {mag : Nat} (h : mag < fpInfMag f) :
    fpFinite f (fpPack f neg mag) = true := by
  simp [fpFinite, fpUnpack_fpPack_fin f neg h]

@[simp] theorem fpFinite_fpPack_inf (f : Format) (neg : Bool) :
    fpFinite f (fpPack f neg (fpInfMag f)) = false := by
  simp [fpFinite, fpUnpack_fpPack_inf f neg]

/-- A packed rounding is finite exactly when its magnitude is below infinity. -/
theorem fpFinite_fpPack_round (f : Format) (neg : Bool) (num den : Nat) :
    fpFinite f (fpPack f neg (fpRoundMag f num den)) = true ↔
      fpRoundMag f num den < fpInfMag f := by
  rcases Nat.lt_or_eq_of_le (roundMag_le f num den) with h | h
  · simp [h]
  · simp [h]

theorem fpValue_fpPack (f : Format) (neg : Bool) {mag : Nat} (h : mag < fpInfMag f) :
    fpValue f (fpPack f neg mag) = fpSigned neg (fpQuanta f mag) := by
  simp [fpValue, fpUnpack_fpPack_fin f neg h]

theorem fpFinite_iff (f : Format) (b : BitVec f.width) :
    fpFinite f b = true ↔ ∃ s q, fpUnpack f b = .fin s q := by
  unfold fpFinite
  split <;> simp_all

theorem fpValue_of_fpUnpack (f : Format) {b : BitVec f.width} {s : Bool} {q : Nat}
    (h : fpUnpack f b = .fin s q) : fpValue f b = fpSigned s q := by
  simp [fpValue, h]

@[simp] theorem natAbs_fpSigned (s : Bool) (q : Nat) : (fpSigned s q).natAbs = q := by
  cases s <;> simp [fpSigned]

theorem fpSigned_not (s : Bool) (q : Nat) : fpSigned (!s) q = -fpSigned s q := by
  cases s <;> simp [fpSigned]

/-- A NaN of the format is a NaN, whatever the free value. -/
theorem fpUnpack_fpNan (op : FpOp) (f : Format) (a b : BitVec f.width) (hf : 1 ≤ f.fracBits) :
    fpUnpack f (fpNan op f a b) = .nan := by
  unfold fpNan
  generalize Config.freeNan op f a b = c
  dsimp only
  have hP : 2 ≤ 2 ^ f.fracBits := by
    calc 2 = 2 ^ 1 := rfl
      _ ≤ 2 ^ f.fracBits := Nat.pow_le_pow_right (by decide) hf
  have hm : c / 2 % (2 ^ f.fracBits - 1) < 2 ^ f.fracBits - 1 := Nat.mod_lt _ (by omega)
  have hs : fpInfMag f + 2 ^ f.fracBits = fpSignWeight f := by
    unfold fpInfMag fpSignWeight
    rw [Nat.pow_add, Nat.sub_mul]
    have : 2 ^ f.fracBits ≤ 2 ^ f.expBits * 2 ^ f.fracBits :=
      Nat.le_mul_of_pos_left _ (Nat.two_pow_pos _)
    omega
  generalize c / 2 % (2 ^ f.fracBits - 1) = p at *
  have hlt : fpInfMag f + 1 + p < fpSignWeight f := by omega
  have hmod : ((if decide (c % 2 = 1) = true then fpSignWeight f else 0) + (fpInfMag f + 1 + p)) %
      fpSignWeight f = fpInfMag f + 1 + p := by
    split
    · rw [Nat.add_mod_left, Nat.mod_eq_of_lt hlt]
    · rw [Nat.zero_add, Nat.mod_eq_of_lt hlt]
  unfold fpUnpack
  rw [toNat_fpPack f _ hlt, hmod]
  dsimp only
  rw [if_neg (by omega), if_neg (by omega)]

/-- A rounded integer is finite exactly when its magnitude is below infinity. -/
theorem fpFinite_fpRoundInt (f : Format) (z : Bool) (x : Int) (hinf : 0 < fpInfMag f) :
    fpFinite f (fpRoundInt f z x) = true ↔ fpRoundMag f x.natAbs 1 < fpInfMag f := by
  unfold fpRoundInt
  split
  · rename_i h
    simp [h, roundMag_zero, hinf, fpFinite_fpPack f z hinf]
  · exact fpFinite_fpPack_round f _ _ _

/-- The value of a rounded integer: its sign and its magnitude, rounded. -/
theorem fpValue_fpRoundInt (f : Format) (z : Bool) (x : Int) (hinf : 0 < fpInfMag f)
    (hfin : fpRoundMag f x.natAbs 1 < fpInfMag f) :
    fpValue f (fpRoundInt f z x) =
      fpSigned (decide (x < 0)) (fpQuanta f (fpRoundMag f x.natAbs 1)) := by
  unfold fpRoundInt
  split
  · rename_i h
    rw [fpValue_fpPack f z hinf]
    cases z <;> simp [h, roundMag_zero, fpSigned]
  · exact fpValue_fpPack f _ hfin

/-! ### The operations on finite values -/

/-- `⊕` of finite values: their exact sum, rounded once. -/
theorem fpAdd_fin (f : Format) {a b : BitVec f.width} {s t : Bool} {m n : Nat}
    (ha : fpUnpack f a = .fin s m) (hb : fpUnpack f b = .fin t n) :
    fpAdd f a b = fpRoundInt f (s && t) (fpSigned s m + fpSigned t n) := by
  simp [fpAdd, ha, hb, fpSumVal]

/-- `⊖` of finite values: their exact difference, rounded once. -/
theorem fpSub_fin (f : Format) {a b : BitVec f.width} {s t : Bool} {m n : Nat}
    (ha : fpUnpack f a = .fin s m) (hb : fpUnpack f b = .fin t n) :
    fpSub f a b = fpRoundInt f (s && !t) (fpSigned s m - fpSigned t n) := by
  simp [fpSub, ha, hb, fpSumVal, fpNegVal, fpSigned_not, sub_eq_add_neg]

/-- `⊘` of finite values with a divisor other than zero: their exact quotient, rounded once. -/
theorem fpDiv_fin (f : Format) {a b : BitVec f.width} {s t : Bool} {m n : Nat}
    (ha : fpUnpack f a = .fin s m) (hb : fpUnpack f b = .fin t n) (hn : n ≠ 0) :
    fpDiv f a b = fpPack f (s ^^ t) (fpRoundMag f (m * fpUnit f) n) := by
  simp [fpDiv, ha, hb, fpQuotVal, hn]

end Sys2Proof.Machine
end

