-- ==== Sys2Proof/Laws/State.lean ====
section
/-! SUPPORT. One lemma per field per update of State, so that no proof unfolds a record update, and the
two laws of the hold file. -/

namespace Sys2Proof.Machine

@[simp] theorem writeOut_init (s : State) (v : Fp) : (writeOut s v).init = s.init := rfl
@[simp] theorem writeOut_S (s : State) (v : Fp) : (writeOut s v).S = s.S := rfl
@[simp] theorem writeOut_X (s : State) (v : Fp) : (writeOut s v).X = s.X := rfl
@[simp] theorem writeOut_W (s : State) (v : Fp) : (writeOut s v).W = s.W := rfl
@[simp] theorem writeOut_CNT (s : State) (v : Fp) : (writeOut s v).CNT = s.CNT := rfl
@[simp] theorem writeOut_OUT (s : State) (v : Fp) : (writeOut s v).OUT = v := rfl
@[simp] theorem writeOut_HOLD (s : State) (v : Fp) : (writeOut s v).HOLD = s.HOLD := rfl
@[simp] theorem writeOut_SAMPLE (s : State) (v : Fp) : (writeOut s v).SAMPLE = s.SAMPLE := rfl
@[simp] theorem writeOut_ports (s : State) (v : Fp) : (writeOut s v).ports = s.ports := rfl
@[simp] theorem writeOut_steps (s : State) (v : Fp) : (writeOut s v).steps = s.steps := rfl

@[simp] theorem writePrng_init (s : State) (x w : U64) : (writePrng s x w).init = s.init := rfl
@[simp] theorem writePrng_S (s : State) (x w : U64) : (writePrng s x w).S = s.S := rfl
@[simp] theorem writePrng_X (s : State) (x w : U64) : (writePrng s x w).X = x := rfl
@[simp] theorem writePrng_W (s : State) (x w : U64) : (writePrng s x w).W = w := rfl
@[simp] theorem writePrng_CNT (s : State) (x w : U64) : (writePrng s x w).CNT = s.CNT := rfl
@[simp] theorem writePrng_OUT (s : State) (x w : U64) : (writePrng s x w).OUT = s.OUT := rfl
@[simp] theorem writePrng_HOLD (s : State) (x w : U64) : (writePrng s x w).HOLD = s.HOLD := rfl
@[simp] theorem writePrng_SAMPLE (s : State) (x w : U64) : (writePrng s x w).SAMPLE = s.SAMPLE := rfl
@[simp] theorem writePrng_ports (s : State) (x w : U64) : (writePrng s x w).ports = s.ports := rfl
@[simp] theorem writePrng_steps (s : State) (x w : U64) : (writePrng s x w).steps = s.steps := rfl

@[simp] theorem writeCnt_init (s : State) (c : U8) : (writeCnt s c).init = s.init := rfl
@[simp] theorem writeCnt_S (s : State) (c : U8) : (writeCnt s c).S = s.S := rfl
@[simp] theorem writeCnt_X (s : State) (c : U8) : (writeCnt s c).X = s.X := rfl
@[simp] theorem writeCnt_W (s : State) (c : U8) : (writeCnt s c).W = s.W := rfl
@[simp] theorem writeCnt_CNT (s : State) (c : U8) : (writeCnt s c).CNT = c := rfl
@[simp] theorem writeCnt_OUT (s : State) (c : U8) : (writeCnt s c).OUT = s.OUT := rfl
@[simp] theorem writeCnt_HOLD (s : State) (c : U8) : (writeCnt s c).HOLD = s.HOLD := rfl
@[simp] theorem writeCnt_SAMPLE (s : State) (c : U8) : (writeCnt s c).SAMPLE = s.SAMPLE := rfl
@[simp] theorem writeCnt_ports (s : State) (c : U8) : (writeCnt s c).ports = s.ports := rfl
@[simp] theorem writeCnt_steps (s : State) (c : U8) : (writeCnt s c).steps = s.steps := rfl

@[simp] theorem writeSample_init (s : State) (v : Fp) : (writeSample s v).init = s.init := rfl
@[simp] theorem writeSample_S (s : State) (v : Fp) : (writeSample s v).S = s.S := rfl
@[simp] theorem writeSample_X (s : State) (v : Fp) : (writeSample s v).X = s.X := rfl
@[simp] theorem writeSample_W (s : State) (v : Fp) : (writeSample s v).W = s.W := rfl
@[simp] theorem writeSample_CNT (s : State) (v : Fp) : (writeSample s v).CNT = s.CNT := rfl
@[simp] theorem writeSample_OUT (s : State) (v : Fp) : (writeSample s v).OUT = s.OUT := rfl
@[simp] theorem writeSample_HOLD (s : State) (v : Fp) : (writeSample s v).HOLD = s.HOLD := rfl
@[simp] theorem writeSample_SAMPLE (s : State) (v : Fp) : (writeSample s v).SAMPLE = v := rfl
@[simp] theorem writeSample_ports (s : State) (v : Fp) : (writeSample s v).ports = s.ports := rfl
@[simp] theorem writeSample_steps (s : State) (v : Fp) : (writeSample s v).steps = s.steps := rfl

@[simp] theorem writeHold_init (s : State) (k : Fin 9) (v : Fp) : (writeHold s k v).init = s.init := rfl
@[simp] theorem writeHold_S (s : State) (k : Fin 9) (v : Fp) : (writeHold s k v).S = s.S := rfl
@[simp] theorem writeHold_X (s : State) (k : Fin 9) (v : Fp) : (writeHold s k v).X = s.X := rfl
@[simp] theorem writeHold_W (s : State) (k : Fin 9) (v : Fp) : (writeHold s k v).W = s.W := rfl
@[simp] theorem writeHold_CNT (s : State) (k : Fin 9) (v : Fp) : (writeHold s k v).CNT = s.CNT := rfl
@[simp] theorem writeHold_OUT (s : State) (k : Fin 9) (v : Fp) : (writeHold s k v).OUT = s.OUT := rfl
@[simp] theorem writeHold_HOLD (s : State) (k : Fin 9) (v : Fp) : (writeHold s k v).HOLD = s.HOLD.set k v := rfl
@[simp] theorem writeHold_SAMPLE (s : State) (k : Fin 9) (v : Fp) : (writeHold s k v).SAMPLE = s.SAMPLE := rfl
@[simp] theorem writeHold_ports (s : State) (k : Fin 9) (v : Fp) : (writeHold s k v).ports = s.ports := rfl
@[simp] theorem writeHold_steps (s : State) (k : Fin 9) (v : Fp) : (writeHold s k v).steps = s.steps := rfl

@[simp] theorem initRegs_init (s : State) : (initRegs s).init = true := rfl
@[simp] theorem initRegs_S (s : State) : (initRegs s).S = Config.seed := rfl
@[simp] theorem initRegs_X (s : State) : (initRegs s).X = 0 := rfl
@[simp] theorem initRegs_W (s : State) : (initRegs s).W = 0 := rfl
@[simp] theorem initRegs_CNT (s : State) : (initRegs s).CNT = 0 := rfl
@[simp] theorem initRegs_OUT (s : State) : (initRegs s).OUT = 0 := rfl
@[simp] theorem initRegs_HOLD (s : State) : (initRegs s).HOLD = Vector.replicate Config.nOct 0 := rfl
@[simp] theorem initRegs_SAMPLE (s : State) : (initRegs s).SAMPLE = 0 := rfl
@[simp] theorem initRegs_ports (s : State) : (initRegs s).ports = s.ports := rfl
@[simp] theorem initRegs_steps (s : State) : (initRegs s).steps = s.steps := rfl

@[simp] theorem tick_init (s : State) : (tick s).init = s.init := rfl
@[simp] theorem tick_S (s : State) : (tick s).S = s.S := rfl
@[simp] theorem tick_X (s : State) : (tick s).X = s.X := rfl
@[simp] theorem tick_W (s : State) : (tick s).W = s.W := rfl
@[simp] theorem tick_CNT (s : State) : (tick s).CNT = s.CNT := rfl
@[simp] theorem tick_OUT (s : State) : (tick s).OUT = s.OUT := rfl
@[simp] theorem tick_HOLD (s : State) : (tick s).HOLD = s.HOLD := rfl
@[simp] theorem tick_SAMPLE (s : State) : (tick s).SAMPLE = s.SAMPLE := rfl
@[simp] theorem tick_ports (s : State) : (tick s).ports = s.ports.tail := rfl
@[simp] theorem tick_steps (s : State) : (tick s).steps = s.steps + 1 := rfl

@[simp] theorem presentPort_init (p : Port) (s : State) : (presentPort p s).init = s.init := rfl
@[simp] theorem presentPort_S (p : Port) (s : State) : (presentPort p s).S = s.S := rfl
@[simp] theorem presentPort_X (p : Port) (s : State) : (presentPort p s).X = s.X := rfl
@[simp] theorem presentPort_W (p : Port) (s : State) : (presentPort p s).W = s.W := rfl
@[simp] theorem presentPort_CNT (p : Port) (s : State) : (presentPort p s).CNT = s.CNT := rfl
@[simp] theorem presentPort_OUT (p : Port) (s : State) : (presentPort p s).OUT = s.OUT := rfl
@[simp] theorem presentPort_HOLD (p : Port) (s : State) : (presentPort p s).HOLD = s.HOLD := rfl
@[simp] theorem presentPort_SAMPLE (p : Port) (s : State) : (presentPort p s).SAMPLE = s.SAMPLE := rfl
@[simp] theorem presentPort_ports (p : Port) (s : State) : (presentPort p s).ports = p :: s.ports := rfl
@[simp] theorem presentPort_steps (p : Port) (s : State) : (presentPort p s).steps = s.steps := rfl

/-- Reading the slot just written. -/
@[simp] theorem readHold_writeHold_same (s : State) (k : Fin 9) (v : Fp) :
    readHold (writeHold s k v) k = v := by
  simp [readHold, writeHold]

/-- Writing a slot leaves every other slot alone. -/
theorem readHold_writeHold_ne (s : State) {j k : Fin 9} (v : Fp) (h : j ≠ k) :
    readHold (writeHold s k v) j = readHold s j := by
  have : k.val ≠ j.val := fun e => h (Fin.ext e.symm)
  simp [readHold, writeHold, this]

/-- Writing a slot twice is writing it once. -/
@[simp] theorem writeHold_writeHold (s : State) (k : Fin 9) (v w : Fp) :
    writeHold (writeHold s k v) k w = writeHold s k w := by
  simp [writeHold, Vector.set_set]

/-- A slot read depends on the hold file alone. -/
theorem readHold_congr {s t : State} (h : s.HOLD = t.HOLD) (k : Fin 9) :
    readHold s k = readHold t k := by
  simp [readHold, h]

/-- After `INIT` or reset every slot reads `+0.0`. -/
@[simp] theorem readHold_initRegs (s : State) (k : Fin 9) : readHold (initRegs s) k = 0 := by
  simp [readHold]

end Sys2Proof.Machine
end

