-- ==== Sys2Proof/Laws/Exec.lean ====
section
/-! SUPPORT. What the stages, the commands and the step can do, each said once; later proofs cite these
and do not unfold the operations. -/

namespace Sys2Proof.Machine

/-! ### The stages of `NEXT` -/

/-- A draw writes `X` and `W` and nothing else. -/
theorem draw_fst (s : State) :
    (draw s).1 = writePrng s (drawX s.X s.W s.S) (drawW s.W s.S) := rfl

/-- The number drawn. -/
theorem draw_snd (s : State) : (draw s).2 = drawResult (drawX s.X s.W s.S) := rfl

/-- `sint32` is the two's complement reading of a word. -/
theorem sint32_eq_toInt (b : U32) : sint32 b = b.toInt := by
  unfold sint32
  rw [BitVec.toInt_eq_toNat_cond]
  split <;> split <;> first | rfl | omega

/-- A draw is in the signed 32-bit range. -/
theorem draw_range (s : State) : -2 ^ 31 ≤ (draw s).2 ∧ (draw s).2 < 2 ^ 31 := by
  rw [draw_snd, drawResult, sint32_eq_toInt]
  generalize BitVec.extractLsb' 0 32 (drawX s.X s.W s.S) = b
  have h1 := BitVec.toInt_lt (x := b)
  have h2 := BitVec.le_toInt b
  constructor <;> omega

/-- All that one `NEXT` does to an initialised state. -/
theorem produceSample_eq (s : State) :
    produceSample s =
      { s with
        X := drawX s.X s.W s.S
        W := drawW s.W s.S
        CNT := s.CNT + 1
        OUT := newOut Config.fmt s.OUT (readHold s (octave s))
          (newHold Config.fmt (octave s) (draw s).2)
        HOLD := s.HOLD.set (octave s) (newHold Config.fmt (octave s) (draw s).2)
        SAMPLE := halved Config.fmt (newOut Config.fmt s.OUT (readHold s (octave s))
          (newHold Config.fmt (octave s) (draw s).2)) } := by
  simp [produceSample, integrate, rescaleSlot, refreshSlot, newOut, newHold, draw, writeHold,
    writeOut, writePrng, writeCnt, writeSample, readHold, Vector.set_set]

@[simp] theorem produceSample_init (s : State) : (produceSample s).init = s.init := rfl
@[simp] theorem produceSample_S (s : State) : (produceSample s).S = s.S := rfl
@[simp] theorem produceSample_X (s : State) : (produceSample s).X = drawX s.X s.W s.S := rfl
@[simp] theorem produceSample_W (s : State) : (produceSample s).W = drawW s.W s.S := rfl
@[simp] theorem produceSample_CNT (s : State) : (produceSample s).CNT = s.CNT + 1 := rfl
@[simp] theorem produceSample_ports (s : State) : (produceSample s).ports = s.ports := rfl
@[simp] theorem produceSample_steps (s : State) : (produceSample s).steps = s.steps := rfl

@[simp] theorem produceSample_OUT (s : State) :
    (produceSample s).OUT = newOut Config.fmt s.OUT (readHold s (octave s))
      (newHold Config.fmt (octave s) (draw s).2) := by rw [produceSample_eq]

@[simp] theorem produceSample_SAMPLE (s : State) :
    (produceSample s).SAMPLE = halved Config.fmt (produceSample s).OUT := rfl

/-- The slots after one `NEXT`: the selected one holds the rescaled draw, the others are unchanged. -/
theorem readHold_produceSample (s : State) (j : Fin 9) :
    readHold (produceSample s) j =
      if j = octave s then newHold Config.fmt (octave s) (draw s).2 else readHold s j := by
  have h : (produceSample s).HOLD =
      (writeHold s (octave s) (newHold Config.fmt (octave s) (draw s).2)).HOLD := by
    rw [produceSample_eq]; rfl
  rw [readHold_congr h]
  split
  · rename_i e; rw [e, readHold_writeHold_same]
  · rename_i e; rw [readHold_writeHold_ne s _ e]

/-! ### Commands -/

/-- Every way a command gives a next state. -/
theorem exec_next_cases {i : Instr} {s t : State} (h : exec i s = .next t) :
    (i = .idle ∧ t = s) ∨ (i = .init ∧ t = initRegs s) ∨
      (i = .next ∧ s.init = true ∧ t = produceSample s) := by
  cases i with
  | idle => exact .inl ⟨rfl, by simpa [exec, execIdle] using h.symm⟩
  | init => exact .inr (.inl ⟨rfl, by simpa [exec, execInit] using h.symm⟩)
  | next =>
    simp only [exec, execNext] at h
    split at h
    · rename_i hi; exact .inr (.inr ⟨rfl, hi, by simpa using h.symm⟩)
    · simp [faultUninitialised] at h
  | rsvd => simp [exec, execRsvd, refuseReserved] at h

/-- Every outcome of a command. -/
theorem exec_cases (i : Instr) (s : State) :
    (∃ t, exec i s = .next t) ∨
      (i = .next ∧ s.init = false ∧ exec i s = .fault (.uninitialised (s.steps + 1))) ∨
      (i = .rsvd ∧ exec i s = .refused (.reservedCommand 0b11#2 (s.steps + 1))) := by
  cases i with
  | idle => exact .inl ⟨s, rfl⟩
  | init => exact .inl ⟨initRegs s, rfl⟩
  | next =>
    by_cases hi : s.init = true
    · exact .inl ⟨produceSample s, by simp [exec, execNext, hi]⟩
    · exact .inr (.inl ⟨rfl, by simpa using hi, by
        simp [exec, execNext, hi, faultUninitialised, stepNumber]⟩)
  | rsvd => exact .inr (.inr ⟨rfl, rfl⟩)

/-- The value of a `NEXT` depends on the registers alone: the model's own fields ride along. -/
theorem produceSample_withModelFields (s : State) (ps : List Port) (n : Nat) :
    produceSample { s with ports := ps, steps := n } =
      { produceSample s with ports := ps, steps := n } := by
  rw [produceSample_eq, produceSample_eq]
  simp only [octave, readHold, draw_snd]

/-- A command that completes does so whatever the model's own fields hold, and leaves them. -/
theorem exec_withModelFields {i : Instr} {s t : State} (ps : List Port) (n : Nat)
    (h : exec i s = .next t) :
    exec i { s with ports := ps, steps := n } = .next { t with ports := ps, steps := n } := by
  rcases exec_next_cases h with ⟨rfl, rfl⟩ | ⟨rfl, rfl⟩ | ⟨rfl, hi, rfl⟩
  · rfl
  · rfl
  · have hn : exec .next { s with ports := ps, steps := n } =
        .next (produceSample { s with ports := ps, steps := n }) := by simp [exec, execNext, hi]
    rw [hn, produceSample_withModelFields]

/-- Two states with the same registers differ in the model's own fields alone. -/
theorem eq_withModelFields_of_sameRegs {s t : State} (h : SameRegs s t) :
    t = { s with ports := t.ports, steps := t.steps } := by
  obtain ⟨h1, h2, h3, h4, h5, h6, h7, h8⟩ := h
  cases s; cases t; simp_all

/-- Commands keep states with the same registers so. -/
theorem exec_sameRegs {i : Instr} {s t u : State} (h : SameRegs s t) (hs : exec i s = .next u) :
    ∃ v, exec i t = .next v ∧ SameRegs u v := by
  rw [eq_withModelFields_of_sameRegs h]
  exact ⟨_, exec_withModelFields _ _ hs, ⟨rfl, rfl, rfl, rfl, rfl, rfl, rfl, rfl⟩⟩

/-! ### Outcomes and steps -/

@[simp] theorem onNext_next (s : State) (k : State → Host.Outcome State Fault Refusal) :
    onNext (.next s) k = k s := rfl

@[simp] theorem onNext_fault (r : Fault) (k : State → Host.Outcome State Fault Refusal) :
    onNext (.fault r) k = .fault r := rfl

@[simp] theorem onNext_refused (r : Refusal) (k : State → Host.Outcome State Fault Refusal) :
    onNext (.refused r) k = .refused r := rfl

/-- Every way a step gives a next state: reset, or the command on the port. -/
theorem step_next_cases {s t : State} (h : step s = .next t) :
    ((portNow s).rst = true ∧ t = tick (initRegs s)) ∨
      ((portNow s).rst = false ∧ ∃ u, exec (decodeCmd (portNow s).cmd) s = .next u ∧ t = tick u) := by
  unfold step stepOn at h
  split at h
  · rename_i hr; exact .inl ⟨hr, by simpa using h.symm⟩
  · rename_i hr
    refine .inr ⟨by simpa using hr, ?_⟩
    generalize exec (decodeCmd (portNow s).cmd) s = o at *
    cases o with
    | next u => exact ⟨u, rfl, by simpa using h.symm⟩
    | fault r => simp at h
    | refused r => simp at h

/-- Every way a step gives a next state, command by command. -/
theorem step_cases {s t : State} (h : step s = .next t) :
    t = tick (initRegs s) ∨ t = tick s ∨ (s.init = true ∧ t = tick (produceSample s)) := by
  rcases step_next_cases h with ⟨-, rfl⟩ | ⟨-, u, hu, rfl⟩
  · exact .inl rfl
  · rcases exec_next_cases hu with ⟨-, rfl⟩ | ⟨-, rfl⟩ | ⟨-, hi, rfl⟩
    · exact .inr (.inl rfl)
    · exact .inl rfl
    · exact .inr (.inr ⟨hi, rfl⟩)

/-- Commands after commands. -/
theorem execAll_append (is js : List Instr) (s : State) :
    execAll (is ++ js) s = onNext (execAll is s) (execAll js) := by
  induction is generalizing s with
  | nil => rfl
  | cons i is ih =>
    simp only [List.cons_append, execAll]
    cases exec i s with
    | next t => simpa using ih t
    | fault r => rfl
    | refused r => rfl

/-- A slot read after the step was counted. -/
@[simp] theorem readHold_tick (s : State) (k : Fin 9) : readHold (tick s) k = readHold s k := rfl

end Sys2Proof.Machine
end

