-- ==== Sys2Proof/Laws/Accumulator.lean ====
section
/-! SUPPORT. The float values of `NEXT` in the format `FMT`: the divisors, the unscaled draw, the
rescaled slot and the halved sum as magnitudes, what a sum keeps of its terms' grid, and how the sum of
the slots and the invariant move under the operations that are not `NEXT`. -/

namespace Sys2Proof.Machine

/-! ### The format `FMT` -/

theorem fpInfMag_fmt : fpInfMag Config.fmt = 0x7F800000 := rfl
theorem fpInfMag_fmt_pos : 0 < fpInfMag Config.fmt := by decide
theorem fpUnit_fmt : fpUnit Config.fmt = 2 ^ 149 := rfl
theorem fpSignWeight_fmt : fpSignWeight Config.fmt = 2 ^ 31 := rfl

/-- Two patterns that pack the same are the same sign and magnitude. -/
theorem fpPack_injective {s t : Bool} {m n : Nat} (hm : m < fpSignWeight Config.fmt)
    (hn : n < fpSignWeight Config.fmt) (h : fpPack Config.fmt s m = fpPack Config.fmt t n) :
    s = t ∧ m = n := by
  have h := congrArg BitVec.toNat h
  rw [toNat_fpPack Config.fmt s hm, toNat_fpPack Config.fmt t hn] at h
  cases s <;> cases t <;> simp at h ⊢ <;> omega

/-- The patterns that stand for a zero of a sign. -/
theorem fpUnpack_eq_zero_iff (b : Fp) (s : Bool) :
    fpUnpack Config.fmt b = .fin s 0 ↔ b = fpPack Config.fmt s 0 := by
  constructor
  · intro h
    obtain ⟨mag, -, hq, rfl⟩ := fpPack_of_fpUnpack Config.fmt h
    rcases Nat.eq_zero_or_pos mag with rfl | hp
    · rfl
    · have := fpQuanta_pos Config.fmt hp; omega
  · rintro rfl; cases s <;> rfl

/-- A finite pattern, read, and its value. -/
theorem fpUnpack_of_fpFinite {b : Fp} (h : fpFinite Config.fmt b = true) :
    ∃ s q, fpUnpack Config.fmt b = .fin s q ∧ fpValue Config.fmt b = fpSigned s q := by
  obtain ⟨s, q, hu⟩ := (fpFinite_iff Config.fmt b).1 h
  exact ⟨s, q, hu, fpValue_of_fpUnpack Config.fmt hu⟩

/-- A rounded integer other than zero is no zero of either sign. -/
theorem fpRoundInt_ne_zero {z : Bool} {x : Int} (h : x ≠ 0) (t : Bool) :
    fpRoundInt Config.fmt z x ≠ fpPack Config.fmt t 0 := by
  unfold fpRoundInt
  rw [if_neg h]
  intro e
  have hlt := (roundMag_le Config.fmt x.natAbs 1).trans_lt (infMag_lt_signWeight Config.fmt)
  exact roundMag_ne_zero Config.fmt (by omega) fpInfMag_fmt_pos
    (fpPack_injective hlt (by decide) e).2

/-- A rounded integer below 4.0 in magnitude is finite and off by at most 2^-23. -/
theorem fpRoundInt_of_lt {x : Int} {z : Bool} (h : x.natAbs < 2 ^ 151) :
    fpFinite Config.fmt (fpRoundInt Config.fmt z x) = true ∧
      (fpValue Config.fmt (fpRoundInt Config.fmt z x) - x).natAbs ≤ 2 ^ 126 ∧
      fpRoundMag Config.fmt x.natAbs 1 < fpInfMag Config.fmt := by
  have hfin : fpRoundMag Config.fmt x.natAbs 1 < fpInfMag Config.fmt := by
    have h1 := roundMag_mono Config.fmt (num := x.natAbs) (num' := 2 ^ 151) Nat.one_pos Nat.one_pos
      (by omega)
    have h2 : fpRoundMag Config.fmt (2 ^ 151) 1 < fpInfMag Config.fmt := by decide
    omega
  refine ⟨(fpFinite_fpRoundInt Config.fmt z x fpInfMag_fmt_pos).2 hfin, ?_, hfin⟩
  rw [fpValue_fpRoundInt Config.fmt z x fpInfMag_fmt_pos hfin]
  have he := roundMag_error_of_lt Config.fmt (num := x.natAbs) (j := 127) h hfin
  rw [show (2 : Nat) ^ 127 = 2 * 2 ^ 126 by decide] at he
  generalize (2 : Nat) ^ 126 = U at *
  generalize fpQuanta Config.fmt (fpRoundMag Config.fmt x.natAbs 1) = Q at *
  by_cases hx : x < 0 <;>
    simp only [fpSigned, hx, decide_true, decide_false, if_true, Bool.false_eq_true, if_false] <;>
    omega

/-! ### The unscaled draw -/

/-- `f(r)` as a pattern. -/
theorem fpOfInt_fmt (r : Int) : fpOfInt Config.fmt r =
    fpPack Config.fmt (decide (r < 0)) (fpRoundMag Config.fmt (r.natAbs * 2 ^ 149) 1) := rfl

/-- `f(DMAX)` is 2^31. -/
theorem fpUnpack_dmax :
    fpUnpack Config.fmt (fpOfInt Config.fmt Config.dmax) = .fin false (2 ^ 31 * 2 ^ 149) := by
  decide

/-- The divisor of slot `k` is exactly `k + 2`. -/
theorem fpUnpack_divisor (k : Fin 9) :
    fpUnpack Config.fmt (fpOfInt Config.fmt ((k.val : Int) + 2)) =
      .fin false ((k.val + 2) * 2 ^ 149) := by
  revert k; decide

/-- The divisor of the output is exactly 2. -/
theorem fpUnpack_two : fpUnpack Config.fmt (fpOfInt Config.fmt 2) = .fin false (2 * 2 ^ 149) := by
  decide

/-- A converted draw is at most 2^31 in magnitude. -/
theorem fpOfInt_mag_le {r : Int} (h1 : -2 ^ 31 ≤ r) (h2 : r < 2 ^ 31) :
    fpRoundMag Config.fmt (r.natAbs * 2 ^ 149) 1 ≤ 0x4F000000 := by
  have e : fpRoundMag Config.fmt (2 ^ 31 * 2 ^ 149) 1 = 0x4F000000 := by decide
  rw [← e]
  refine roundMag_mono Config.fmt Nat.one_pos Nat.one_pos ?_
  have : r.natAbs ≤ 2 ^ 31 := by omega
  generalize (2 : Nat) ^ 149 = U at *
  have := Nat.mul_le_mul_right U this
  omega

/-- A whole number other than zero is at least 1.0. -/
theorem mag_ge_one_of_dvd {mag : Nat} (h : 2 ^ 149 ∣ fpQuanta Config.fmt mag) (h0 : mag ≠ 0) :
    0x3F800000 ≤ mag := by
  by_contra hc
  have hlt := fpQuanta_strictMono Config.fmt (show mag < 0x3F800000 by omega)
  rw [show fpQuanta Config.fmt 0x3F800000 = 2 ^ 149 by decide] at hlt
  have hp := fpQuanta_pos Config.fmt (Nat.pos_of_ne_zero h0)
  exact absurd (Nat.le_of_dvd hp h) (by omega)

/-- The unscaled value of a draw as a sign and a magnitude `n`: at most 1.0, zero only of the draw 0,
else at least 2^-31, and exactly the converted draw divided by 2^31. -/
theorem unscaled_spec {r : Int} (h1 : -2 ^ 31 ≤ r) (h2 : r < 2 ^ 31) :
    ∃ n, unscaled Config.fmt r = fpPack Config.fmt (decide (r < 0)) n ∧ n ≤ 0x3F800000 ∧
      fpQuanta Config.fmt n * 2 ^ 31 =
        fpQuanta Config.fmt (fpRoundMag Config.fmt (r.natAbs * 2 ^ 149) 1) ∧
      (n = 0 ↔ r = 0) ∧ (n ≠ 0 → 0x30000000 ≤ n) ∧
      n = fpRoundMag Config.fmt
        (fpQuanta Config.fmt (fpRoundMag Config.fmt (r.natAbs * 2 ^ 149) 1)) (2 ^ 31) := by
  have hb := fpOfInt_mag_le h1 h2
  have hfin : fpRoundMag Config.fmt (r.natAbs * 2 ^ 149) 1 < fpInfMag Config.fmt := by
    rw [fpInfMag_fmt]; omega
  have hdvd := dvd_quanta_roundMag Config.fmt (j := 149) (Dvd.intro_left _ rfl) hfin
  have hz : fpRoundMag Config.fmt (r.natAbs * 2 ^ 149) 1 = 0 ↔ r = 0 := by
    constructor
    · intro h
      by_contra h0
      exact roundMag_ne_zero Config.fmt (Nat.mul_ne_zero (by omega) (by decide)) fpInfMag_fmt_pos h
    · rintro rfl; simp [roundMag_zero]
  have hu : fpUnpack Config.fmt (fpOfInt Config.fmt r) = .fin (decide (r < 0))
      (fpQuanta Config.fmt (fpRoundMag Config.fmt (r.natAbs * 2 ^ 149) 1)) := by
    rw [fpOfInt_fmt]; exact fpUnpack_fpPack_fin Config.fmt _ hfin
  have heq := fpDiv_fin Config.fmt hu fpUnpack_dmax (by decide)
  rw [fpUnit_fmt] at heq
  obtain ⟨M, hM⟩ : ∃ M, M = fpRoundMag Config.fmt (r.natAbs * 2 ^ 149) 1 := ⟨_, rfl⟩
  rw [← hM] at hb hfin hdvd hz hu heq ⊢
  clear hM hu
  have hcongr : fpRoundMag Config.fmt (fpQuanta Config.fmt M * 2 ^ 149) (2 ^ 31 * 2 ^ 149) =
      fpRoundMag Config.fmt (fpQuanta Config.fmt M) (2 ^ 31) :=
    roundMag_congr Config.fmt (by decide) (by decide) (by generalize (2 : Nat) ^ 149 = U; ring)
  rw [hcongr, Bool.xor_false] at heq
  refine ⟨_, heq, ?_, ?_, ?_, ?_, rfl⟩
  all_goals
    rcases Nat.eq_zero_or_pos M with rfl | hp
    · simp only [fpQuanta_zero, roundMag_zero] at *
      first | decide | simpa using hz
  all_goals
    have hg := mag_ge_one_of_dvd hdvd (by omega)
    obtain ⟨d1, d2⟩ := roundMag_div_pow Config.fmt (mag := M) (j := 31) (by rw [fpInfMag_fmt]; omega)
      (by show (31 + 1) * 2 ^ 23 ≤ M; omega)
    rw [show Config.fmt.fracBits = 23 from rfl] at d1 d2
    rw [d1]
  · omega
  · exact d2
  · constructor
    · intro h; omega
    · intro h; have := hz.2 h; omega
  · intro _; omega

/-! ### Rescaling and halving -/

/-- The rescaler on a finite value: its magnitude divided by `k + 2`, rounded once. -/
theorem rescaled_fpPack (k : Fin 9) {s : Bool} {n : Nat} (h : n < fpInfMag Config.fmt) :
    rescaled Config.fmt k (fpPack Config.fmt s n) =
      fpPack Config.fmt s (fpRoundMag Config.fmt (fpQuanta Config.fmt n) (k.val + 2)) := by
  rw [rescaled, fpDiv_fin Config.fmt (fpUnpack_fpPack_fin Config.fmt s h) (fpUnpack_divisor k)
    (Nat.mul_ne_zero (by omega) (by decide)), Bool.xor_false, fpUnit_fmt]
  exact congrArg (fpPack Config.fmt s) (roundMag_congr Config.fmt
    (Nat.mul_pos (by omega) (by decide)) (by omega) (by generalize (2 : Nat) ^ 149 = U; ring))

/-- The halving of a finite value: its magnitude divided by 2, rounded once. -/
theorem halved_fpPack {s : Bool} {n : Nat} (h : n < fpInfMag Config.fmt) :
    halved Config.fmt (fpPack Config.fmt s n) =
      fpPack Config.fmt s (fpRoundMag Config.fmt (fpQuanta Config.fmt n) (2 ^ 1)) := by
  rw [halved, fpDiv_fin Config.fmt (fpUnpack_fpPack_fin Config.fmt s h) fpUnpack_two (by decide),
    Bool.xor_false, fpUnit_fmt]
  exact congrArg (fpPack Config.fmt s) (roundMag_congr Config.fmt (by decide) (by decide)
    (by generalize (2 : Nat) ^ 149 = U; ring))

/-- The cap of slot `k` in quanta. -/
theorem slotCap_eq (k : Fin 9) :
    slotCap k = fpQuanta Config.fmt (fpRoundMag Config.fmt (2 ^ 149) (k.val + 2)) := by
  revert k; decide

/-! ### The grid of a sum -/

theorem dvd_fpSigned {s : Bool} {j q : Nat} : (2 : Int) ^ j ∣ fpSigned s q ↔ 2 ^ j ∣ q := by
  have h : (2 : Int) ^ j = ((2 ^ j : Nat) : Int) := by push_cast; rfl
  rw [h]
  cases s
  · simp only [fpSigned, Bool.false_eq_true, if_false]; exact Int.natCast_dvd_natCast
  · simp only [fpSigned, if_true]; rw [Int.dvd_neg]; exact Int.natCast_dvd_natCast

/-- What `OnGrid` says of a finite pattern that was read. -/
theorem OnGrid.of_fin {b : Fp} {s : Bool} {q : Nat} (h : OnGrid (2 ^ 91) b)
    (hu : fpUnpack Config.fmt b = .fin s q) :
    (2 : Int) ^ 91 ∣ fpSigned s q ∧ ¬(s = true ∧ q = 0) := by
  constructor
  · have := h.2 ((fpFinite_iff Config.fmt b).2 ⟨s, q, hu⟩)
    rwa [fpValue_of_fpUnpack Config.fmt hu] at this
  · rintro ⟨rfl, rfl⟩; exact h.1 ((fpUnpack_eq_zero_iff b true).1 hu)

theorem onGrid_inf (s : Bool) : OnGrid (2 ^ 91) (fpPack Config.fmt s (fpInfMag Config.fmt)) := by
  constructor
  · intro e
    have := (fpPack_injective (by decide) (by decide) e).2
    revert this; decide
  · intro h; rw [fpFinite_fpPack_inf] at h; cases h

theorem onGrid_nan (op : FpOp) (a b : Fp) : OnGrid (2 ^ 91) (fpNan op Config.fmt a b) := by
  have h := fpUnpack_fpNan op Config.fmt a b (by decide)
  constructor
  · intro e
    rw [e, (fpUnpack_eq_zero_iff _ true).2 rfl] at h
    cases h
  · intro hf; rw [fpFinite, h] at hf; cases hf

theorem onGrid_roundInt {z : Bool} {x : Int} (hz : x = 0 → z = false) (hd : (2 : Int) ^ 91 ∣ x) :
    OnGrid (2 ^ 91) (fpRoundInt Config.fmt z x) := by
  constructor
  · by_cases hx : x = 0
    · rw [fpRoundInt, if_pos hx, hz hx]; decide
    · exact fpRoundInt_ne_zero hx true
  · intro hf
    have hfin := (fpFinite_fpRoundInt Config.fmt z x fpInfMag_fmt_pos).1 hf
    rw [fpValue_fpRoundInt Config.fmt z x fpInfMag_fmt_pos hfin, dvd_fpSigned]
    have := Int.natAbs_dvd_natAbs.2 hd
    exact dvd_quanta_roundMag Config.fmt
      (by rwa [show ((2 : Int) ^ 91).natAbs = 2 ^ 91 by decide] at this) hfin

/-- A sum keeps the grid of its terms, and is no negative zero unless its first term is. -/
theorem onGrid_sumVal (op : FpOp) (a b : Fp) (u v : FpVal)
    (hu : ∀ s m, u = .fin s m → (2 : Int) ^ 91 ∣ fpSigned s m ∧ ¬(s = true ∧ m = 0))
    (hv : ∀ s m, v = .fin s m → (2 : Int) ^ 91 ∣ fpSigned s m) :
    OnGrid (2 ^ 91) (fpSumVal Config.fmt (fpNan op Config.fmt a b) u v) := by
  cases u with
  | nan => cases v <;> exact onGrid_nan _ _ _
  | inf s =>
    cases v with
    | nan => exact onGrid_nan _ _ _
    | inf t =>
      by_cases h : s = t <;> simp only [fpSumVal, h, if_true, if_false]
      · exact onGrid_inf _
      · exact onGrid_nan _ _ _
    | fin t n => exact onGrid_inf _
  | fin s m =>
    cases v with
    | nan => exact onGrid_nan _ _ _
    | inf t => exact onGrid_inf _
    | fin t n =>
      obtain ⟨h1, h2⟩ := hu s m rfl
      refine onGrid_roundInt ?_ (Int.dvd_add h1 (hv t n rfl))
      intro hx
      cases s <;> cases t <;> try rfl
      exfalso; apply h2; refine ⟨rfl, ?_⟩; simp [fpSigned] at hx; omega

theorem onGrid_fpAdd {a b : Fp} (ha : OnGrid (2 ^ 91) a) (hb : OnGrid (2 ^ 91) b) :
    OnGrid (2 ^ 91) (fpAdd Config.fmt a b) :=
  onGrid_sumVal _ _ _ _ _ (fun _ _ h => ha.of_fin h) (fun _ _ h => (hb.of_fin h).1)

theorem onGrid_fpSub {a b : Fp} (ha : OnGrid (2 ^ 91) a) (hb : OnGrid (2 ^ 91) b) :
    OnGrid (2 ^ 91) (fpSub Config.fmt a b) := by
  refine onGrid_sumVal _ _ _ _ _ (fun _ _ h => ha.of_fin h) (fun s m h => ?_)
  cases hu : fpUnpack Config.fmt b with
  | nan => rw [hu] at h; cases h
  | inf t => rw [hu] at h; cases h
  | fin t n =>
    rw [hu] at h
    injection h with h1 h2
    subst h1; subst h2
    rw [fpSigned_not]
    exact (Int.dvd_neg).2 (hb.of_fin hu).1

/-! ### The sum of the slots, and the invariant -/

/-- One `NEXT` takes the stale slot out of the sum of the slots and puts the fresh one in. -/
theorem holdSum_produceSample (s : State) :
    holdSum (produceSample s) = holdSum s - fpValue Config.fmt (readHold s (octave s)) +
      fpValue Config.fmt (newHold Config.fmt (octave s) (draw s).2) := by
  unfold holdSum
  rw [← Finset.add_sum_erase _ _ (Finset.mem_univ (octave s)),
    ← Finset.add_sum_erase Finset.univ (fun k => fpValue Config.fmt (readHold s k))
      (Finset.mem_univ (octave s)), readHold_produceSample, if_pos rfl]
  have h : ∑ x ∈ Finset.univ.erase (octave s), fpValue Config.fmt (readHold (produceSample s) x) =
      ∑ x ∈ Finset.univ.erase (octave s), fpValue Config.fmt (readHold s x) := by
    refine Finset.sum_congr rfl fun x hx => ?_
    rw [readHold_produceSample, if_neg (Finset.ne_of_mem_erase hx)]
  rw [h]; ring

theorem holdSum_initRegs (s : State) : holdSum (initRegs s) = 0 := by
  unfold holdSum
  refine Finset.sum_eq_zero fun k _ => ?_
  rw [readHold_initRegs]; decide

/-- Counting a step does not touch the invariant. -/
theorem inv_tick {s : State} (h : s.Inv) : (tick s).Inv := h

theorem driftOk_tick {n : Nat} {s : State} (h : DriftOk n s) : DriftOk n (tick s) := h

/-- A drift bound holds with room to spare. -/
theorem driftOk_mono {m n : Nat} {s : State} (hmn : m ≤ n) (h : DriftOk m s) : DriftOk n s :=
  ⟨h.1, h.2.1, h.2.2.trans (Nat.mul_le_mul_right _ hmn)⟩

/-- `INIT` and reset establish the invariant. -/
theorem inv_initRegs (s : State) : (initRegs s).Inv := by
  intro _
  refine ⟨rfl, ?_, by show OnGrid (2 ^ 91) 0; decide, by show (0 : Fp) = halved Config.fmt 0; decide⟩
  intro k
  rw [readHold_initRegs]; revert k; decide

end Sys2Proof.Machine
end

