-- ==== Sys2Proof/Laws/PerInstr.lean ====
section
/-! SUPPORT. The statement made of every instruction as syntax: how a listing spells it. -/

namespace Sys2Proof.Laws.Spelling

/-- A listing's mnemonic of a command is read as that command, and a line that holds it alone is one
item (30_encoding R78). -/
def Statement (i : Instr) : Prop :=
  Machine.parseMnemonic (Machine.mnemonic i) = some i ∧
    Machine.parseItem (Machine.mnemonic i) = .ok (.cmd i)

theorem idle : Statement .idle := ⟨rfl, rfl⟩

theorem init : Statement .init := ⟨rfl, rfl⟩

theorem next : Statement .next := ⟨rfl, rfl⟩

theorem rsvd : Statement .rsvd := ⟨rfl, rfl⟩

end Sys2Proof.Laws.Spelling
end

