-- ==== Sys2Proof/Laws/Run.lean ====
section
/-! SUPPORT. Commands repeated, and one step of a run on the port value in front of it. -/

namespace Sys2Proof.Machine

theorem SameRegs.refl (s : State) : SameRegs s s := ⟨rfl, rfl, rfl, rfl, rfl, rfl, rfl, rfl⟩

theorem SameRegs.symm {s t : State} (h : SameRegs s t) : SameRegs t s := by
  obtain ⟨h1, h2, h3, h4, h5, h6, h7, h8⟩ := h
  exact ⟨h1.symm, h2.symm, h3.symm, h4.symm, h5.symm, h6.symm, h7.symm, h8.symm⟩

/-- `n` times `NEXT` from an initialised state. -/
theorem execAll_replicate_next (n : Nat) (s : State) (h : s.init = true) :
    execAll (List.replicate n .next) s = .next (produceSample^[n] s) := by
  induction n generalizing s with
  | zero => rfl
  | succ n ih =>
    simp only [List.replicate_succ, execAll, exec, execNext, h, if_true, onNext_next]
    rw [ih _ (by simpa using h)]; rfl

/-- The registers that count, after `n` samples. -/
theorem iterate_produceSample (n : Nat) (s : State) :
    (produceSample^[n] s).CNT = s.CNT + BitVec.ofNat 8 n ∧
      (produceSample^[n] s).W = s.W + BitVec.ofNat 64 n * s.S ∧
      (produceSample^[n] s).S = s.S ∧ (produceSample^[n] s).init = s.init := by
  induction n with
  | zero => simp
  | succ n ih =>
    obtain ⟨h1, h2, h3, h4⟩ := ih
    rw [Function.iterate_succ_apply']
    refine ⟨?_, ?_, by simpa using h3, by simpa using h4⟩
    · simp [h1, BitVec.ofNat_add, BitVec.add_assoc]
    · simp [drawW, h2, h3, BitVec.ofNat_add, BitVec.add_mul, BitVec.add_assoc]

/-- One step of a run that has recorded nothing, with `p` on the ports and `ps` to come: reset or the
command gives the next state, and its sample is kept if it was a `NEXT`; or the command stops, which is
recorded over an unchanged state. -/
theorem runStep_cases (s : State) (p : Port) (ps : List Port) (acc : List Fp) :
    (∃ t,
      (p.rst = true ∧ t = tick { initRegs s with ports := p :: ps } ∨
        p.rst = false ∧ ∃ u, exec (decodeCmd p.cmd) s = .next u ∧
          t = { u with ports := ps, steps := s.steps + 1 }) ∧
      runStep ⟨{ s with ports := p :: ps }, acc, none⟩ =
        ⟨t, if (!p.rst && decide (decodeCmd p.cmd = .next)) then acc ++ [t.SAMPLE] else acc, none⟩ ∧
      t.ports = ps) ∨
    (p.rst = false ∧ (∀ u, exec (decodeCmd p.cmd) s ≠ .next u) ∧
      ∃ m, runStep ⟨{ s with ports := p :: ps }, acc, none⟩ =
        ⟨{ s with ports := p :: ps }, acc, some m⟩) := by
  by_cases hr : p.rst = true
  · refine .inl ⟨_, .inl ⟨hr, rfl⟩, ?_, rfl⟩
    simp [runStep, step, stepOn, portNow, hr, returnsSample, initRegs]
  · have hr : p.rst = false := by simpa using hr
    by_cases hn : ∃ u, exec (decodeCmd p.cmd) s = .next u
    · obtain ⟨u, hu⟩ := hn
      have h2 := exec_withModelFields (p :: ps) s.steps hu
      refine .inl ⟨_, .inr ⟨hr, u, hu, rfl⟩, ?_, rfl⟩
      simp [runStep, step, stepOn, portNow, hr, returnsSample]
      rw [h2]; simp [tick]
    · refine .inr ⟨hr, by simpa using hn, ?_⟩
      rcases exec_cases (decodeCmd p.cmd) s with h | ⟨h1, h2, h3⟩ | ⟨h1, h2⟩
      · exact absurd h hn
      · exact ⟨.faulted (.uninitialised (s.steps + 1)), by
          simp [runStep, step, stepOn, portNow, hr, h1, exec, execNext, h2, faultUninitialised,
            stepNumber]⟩
      · exact ⟨.refused (.reservedCommand 0b11#2 (s.steps + 1)), by
          simp [runStep, step, stepOn, portNow, hr, h1, exec, execRsvd, refuseReserved, stepNumber,
            encode]⟩

end Sys2Proof.Machine
end

