-- ==== Sys2Proof/Tests/Slice0.lean ====
section
/-! SUPPORT. Tests of the model against the spec's vectors (95_test_vectors; each names its vector), the
well-formedness smoke, and a witness for the hypotheses of every obligation that has some. -/

namespace Sys2Proof.Tests

open Sys2Proof.Machine

/-- Whether an outcome is a next state that a check accepts. -/
def nextIs (o : Host.Outcome State Fault Refusal) (check : State → Bool) : Bool :=
  match o with
  | .next s => check s
  | .fault _ => false
  | .refused _ => false

/-- The reset state with `p` on the ports in the next step. -/
def withPort (cmd : U2) (rst : Bool) : State := presentPort ⟨cmd, rst⟩ State.reset

/-- The power-on state with `p` on the ports in the next step. -/
def bottomWithPort (cmd : U2) (rst : Bool) : State := presentPort ⟨cmd, rst⟩ State.powerOn

/-- A run that stands at a state and has recorded nothing. -/
def runAt (s : State) : Run := ⟨s, [], none⟩

/-! ### Well-formedness: an ill-formed term for each check -/

theorem test_next_zero_is_ill_formed : (Item.nextTimes 0).wf = false := by decide
theorem test_idle_zero_is_ill_formed : (Item.idleTimes 0).wf = false := by decide
theorem test_next_one_is_well_formed : (Item.nextTimes 1).wf = true := by decide

/-! ### Decoding: each command word written out bit by bit from 30_encoding R73, `op` in bits 1..0 -/

theorem test_decode_idle : decodeCmd (BitVec.ofBool false ++ BitVec.ofBool false) = .idle := by decide
theorem test_decode_init : decodeCmd (BitVec.ofBool false ++ BitVec.ofBool true) = .init := by decide
theorem test_decode_next : decodeCmd (BitVec.ofBool true ++ BitVec.ofBool false) = .next := by decide
theorem test_decode_rsvd : decodeCmd (BitVec.ofBool true ++ BitVec.ofBool true) = .rsvd := by decide
theorem test_decode_table_words :
    (List.range 5).map (decodeTableWord 8) =
      [some .idle, some .init, some .next, some .rsvd, none] := by decide
theorem test_decode_errors :
    decodeWord 1 0 = .error .tooShort ∧ decodeWord 8 6 = .error .tooWide := ⟨rfl, rfl⟩

/-! ### The generator (V-PRNG-3) -/

theorem test_draw_registers :
    [(0xFFFFFFFFFFFFFFFF#64, 0#64), (0#64, 0xFFFFFFFFFFFFFFFF#64), (0x0000000100000000#64, 0#64),
      (0x00000000FFFFFFFF#64, 0xFFFFFFFFFFFFFFFF#64),
      (0x123456789ABCDEF0#64, 0x0FEDCBA987654321#64)].map
      (fun p => (drawX p.1 p.2 0x2252E7CD98846FDD#64, drawW p.2 0x2252E7CD98846FDD#64)) =
    [(0x98846FDE2252E7CD#64, 0x2252E7CD98846FDD#64), (0x98846FDC2252E7CD#64, 0x2252E7CD98846FDC#64),
      (0x98846FDD2252E7CD#64, 0x2252E7CD98846FDD#64), (0x98846FDD2252E7CB#64, 0x2252E7CD98846FDC#64),
      (0x128ED3FED822BC08#64, 0x3240B3771FE9B2FE#64)] := by decide

theorem test_draw_results :
    drawResult 0x98846FDE2252E7CD#64 = 575858637 ∧
      drawResult 0x128ED3FED822BC08#64 = -668812280 := by decide

/-! ### The octave selector (V-TZ-1) -/

theorem test_selector_points :
    ([0, 1, 2, 4, 8, 16, 32, 64, 128, 255, 254, 192, 96, 0x30].map fun c =>
      (tz8 (BitVec.ofNat 8 c)).val) = [8, 0, 1, 2, 3, 4, 5, 6, 7, 0, 1, 6, 5, 4] := by decide

/-! ### Float values (V-SCALE-1, V-SCALE-2, V-NEXT-2, V-NEXT-6, V-NEXT-7) -/

theorem test_unscaled_vectors :
    [0, 1, -1, 16777217, 2147483583, 2147483584, -2147483585, -2147483648].map
      (unscaled Format.binary32) =
    [0x00000000#32, 0x30000000#32, 0xB0000000#32, 0x3C000000#32, 0x3F7FFFFF#32, 0x3F800000#32,
      0xBF800000#32, 0xBF800000#32] := by decide

theorem test_rescaled_vectors :
    ((List.finRange 9).map fun k => rescaled Format.binary32 k 0x3E894B9F#32) =
    [0x3E094B9F#32, 0x3DB70F7F#32, 0x3D894B9F#32, 0x3D5BAC32#32, 0x3D370F7F#32, 0x3D1CE8B6#32,
      0x3D094B9F#32, 0x3CF414A9#32, 0x3CDBAC32#32] := by decide

theorem test_binary64_second_sample :
    unscaled Format.binary64 (-321917448) = 0xBFC3301208266024#64 ∧
      newOut Format.binary64 0x3F9B75863DD084A6#64 0#64
        (newHold Format.binary64 0 (-321917448)) = 0xBFA8A560F1647DF5#64 ∧
      halved Format.binary64 0xBFA8A560F1647DF5#64 = 0xBF98A560F1647DF5#64 := by decide +kernel

theorem test_sub_stale_and_cancel :
    fpSub Format.binary32 0x3DD125DC#32 0x3CDBAC32#32 = 0x3D9A3AD0#32 ∧
      fpSub Format.binary32 0x3CDBAC32#32 0x3CDBAC32#32 = 0x00000000#32 := by decide

/-! ### Commands -/

/-- V-IDLE-1: `IDLE` keeps the sample. -/
theorem test_idle_keeps_sample :
    nextIs (exec .idle { State.reset with SAMPLE := 0x3C5BAC32#32 })
      (fun t => t.SAMPLE == 0x3C5BAC32#32) = true := by decide

/-- `IDLE` leaves ⊥ without a fault (41_accumulator R128). -/
theorem test_idle_in_bottom : nextIs (step State.powerOn) (fun t => !t.init) = true := by decide

/-- V-INIT-1, from a state with other values. -/
theorem test_init_clears :
    nextIs (exec .init { State.reset with S := 1, CNT := 7, OUT := 0x3E1C7378#32 })
      (fun t => t.S == 0x2252E7CD98846FDD#64 && t.CNT == 0 && t.OUT == 0) = true := by decide

/-- V-NEXT-1, call 1. -/
theorem test_next_first_call :
    nextIs (exec .next State.reset) (fun t =>
      readHold t 8 == 0x3CDBAC32#32 && t.OUT == 0x3CDBAC32#32 && t.CNT == 1 &&
        t.SAMPLE == 0x3C5BAC32#32) = true := by decide

/-- V-NEXT-5: the counter wraps and slot 0 gives way to the fresh value. -/
theorem test_next_counter_wraps :
    nextIs (exec .next (writeHold { State.reset with
        CNT := 255, X := 0xEEB49F5C6078A63E#64, W := 0x3094E5CAEBEB6D23#64, OUT := 0x3E099B62#32 }
        0 0xBE704B7D#32)) (fun t =>
      readHold t 0 == 0xBE88A9F9#32 && t.OUT == 0x3DD125DC#32 && t.CNT == 0 &&
        t.SAMPLE == 0x3D5125DC#32) = true := by decide

/-- V-RSVD-2: with `RST` asserted the reserved word is ignored. -/
theorem test_rsvd_with_reset :
    nextIs (step (withPort 0b11#2 true)) (fun t => t.CNT == 0 && t.init) = true := by decide

/-- V-UNINIT-3: the refusal comes before the `Uninitialised` check. -/
theorem test_rsvd_in_bottom :
    step (bottomWithPort 0b11#2 false) = .refused (.reservedCommand 0b11#2 1) := rfl

/-- V-UNINIT-1. -/
theorem test_next_in_bottom : step (bottomWithPort 0b10#2 false) = .fault (.uninitialised 1) := rfl

/-- A reset step at power-up gives the reset state. -/
theorem test_reset_from_power_up : step (bottomWithPort 0b11#2 true) = .next State.reset := rfl

/-! ### Listings (30_encoding R78, R79) -/

theorem test_listing :
    assemble "RESET ; RST, CMD 00\n\nNEXT*2\n  INIT ; 01\nRSVD".toList =
      .ok [⟨0b00#2, true⟩, cmdPort .next, cmdPort .next, cmdPort .init, cmdPort .rsvd] := by decide

theorem test_listing_refusals :
    assemble "NEXT*0".toList = .error .zeroRepeat ∧ assemble "next".toList = .error .unknownItem := by
  decide

theorem test_rendered_encoding :
    renderOps [0b01#2, 0b10#2, 0b11#2] = "01 10 11".toList := by decide

/-! ### Witnesses of hypotheses: a concrete state and operands that meet them all -/

theorem witness_TableWordIsTwoBits :
    (2 ≤ 2 ∧ 3 < 4) ∧ ((1 : Nat) < 2 ∨ (4 : Nat) ≤ 0) ∧ ((2 : Nat) < 2 ∨ (4 : Nat) ≤ 4) := by decide

theorem witness_StepRunsTheDecodedCommand : (portNow State.reset).rst = false := by decide

theorem witness_PresentedWordIsPerformedNext : 3 < 4 := by decide

theorem witness_ResetTakesPrecedence : (portNow (withPort 0b11#2 true)).rst = true := by decide

theorem witness_PriorityWithinOneStep :
    (portNow (bottomWithPort 0b11#2 true)).rst = true ∧
    ((portNow (bottomWithPort 0b11#2 false)).rst = false ∧
      (portNow (bottomWithPort 0b11#2 false)).cmd = 0b11#2) ∧
    ((portNow (bottomWithPort 0b10#2 false)).rst = false ∧
      (portNow (bottomWithPort 0b10#2 false)).cmd = 0b10#2 ∧
      (bottomWithPort 0b10#2 false).init = false) ∧
    ((portNow (withPort 0b10#2 false)).rst = false ∧ (portNow (withPort 0b10#2 false)).cmd ≠ 0b11#2 ∧
      ¬((portNow (withPort 0b10#2 false)).cmd = 0b10#2 ∧ (withPort 0b10#2 false).init = false)) := by
  decide

theorem witness_StepCompletesIffDutiesAreKept :
    (portNow (withPort 0b10#2 false)).cmd ≠ 0b11#2 ∧
      ((portNow (withPort 0b10#2 false)).cmd = 0b10#2 → (withPort 0b10#2 false).init = true) := by
  decide

theorem witness_ReservedWordIsRefused :
    ((portNow (withPort 0b11#2 false)).cmd = 0b11#2 ∧ (portNow (withPort 0b11#2 false)).rst = false) ∧
    ((portNow (withPort 0b11#2 true)).cmd = 0b11#2 ∧ (portNow (withPort 0b11#2 true)).rst = true) := by
  decide

/-- A run whose next step carries the reserved word. -/
theorem witness_ReservedWordIsRefused_run :
    (runAt (bottomWithPort 0b11#2 false)).state = bottomWithPort 0b11#2 false ∧
    (runAt (bottomWithPort 0b11#2 false)).mark = none ∧
    (portNow (bottomWithPort 0b11#2 false)).cmd = 0b11#2 ∧
    (portNow (bottomWithPort 0b11#2 false)).rst = false := by
  refine ⟨rfl, rfl, rfl, rfl⟩

theorem witness_ResetValues : (portNow (bottomWithPort 0b10#2 true)).rst = true := by decide

theorem witness_NextProducesTheSample :
    State.reset.init = true ∧ State.powerOn.init = false := ⟨rfl, rfl⟩

/-- Each command that completes, and for `NEXT` a slot that is not the selected one. -/
theorem witness_CommandFrames :
    exec .idle State.powerOn = .next State.powerOn ∧
      exec .init State.powerOn = .next (initRegs State.powerOn) ∧
      exec .next State.reset = .next (produceSample State.reset) ∧
      (7 : Fin 9) ≠ tz8 State.reset.CNT := ⟨rfl, rfl, rfl, by decide⟩

/-- Two states that differ in the sample and in a slot that is not the selected one. -/
theorem witness_NextDependsOnlyOnWhatItReads :
    let t := writeHold (writeSample State.reset 0x3F800000#32) 0 0x3F800000#32
    State.reset ≠ t ∧ State.reset.init = true ∧ t.init = true ∧ State.reset.S = t.S ∧
      State.reset.X = t.X ∧ State.reset.W = t.W ∧ State.reset.CNT = t.CNT ∧ State.reset.OUT = t.OUT ∧
      readHold State.reset (tz8 State.reset.CNT) = readHold t (tz8 t.CNT) := by decide

theorem witness_DrawDependsOnTheGeneratorAlone :
    State.reset ≠ { State.reset with CNT := 9 } ∧
      State.reset.S = ({ State.reset with CNT := 9 } : State).S ∧
      State.reset.X = ({ State.reset with CNT := 9 } : State).X ∧
      State.reset.W = ({ State.reset with CNT := 9 } : State).W := by decide

theorem witness_RefreshCadence : State.reset.init = true := rfl

/-- Finite operands and finite results, with a divisor other than zero. -/
theorem witness_OperationsRoundToNearestEven :
    fpFinite Format.binary32 (fpOfInt Format.binary32 16777217) = true ∧
    fpFinite Format.binary32 0x3F800000#32 = true ∧ fpFinite Format.binary32 0x40400000#32 = true ∧
    fpFinite Format.binary32 (fpAdd Format.binary32 0x3F800000#32 0x40400000#32) = true ∧
    fpFinite Format.binary32 (fpSub Format.binary32 0x3F800000#32 0x40400000#32) = true ∧
    fpFinite Format.binary32 (fpDiv Format.binary32 0x3F800000#32 0x40400000#32) = true ∧
    fpValue Format.binary32 0x40400000#32 ≠ 0 := by decide

/-- The same in binary64. -/
theorem witness_OperationsRoundToNearestEven_binary64 :
    fpFinite Format.binary64 (fpOfInt Format.binary64 9007199254740993) = true ∧
    fpFinite Format.binary64 0x3FF0000000000000#64 = true ∧
    fpFinite Format.binary64 0x4008000000000000#64 = true ∧
    fpFinite Format.binary64 (fpAdd Format.binary64 0x3FF0000000000000#64 0x4008000000000000#64) = true ∧
    fpFinite Format.binary64 (fpSub Format.binary64 0x3FF0000000000000#64 0x4008000000000000#64) = true ∧
    fpFinite Format.binary64 (fpDiv Format.binary64 0x3FF0000000000000#64 0x4008000000000000#64) = true ∧
    fpValue Format.binary64 0x4008000000000000#64 ≠ 0 := by decide +kernel

/-- In binary32: finite operands whose sum, difference and quotient overflow, and some whose do not; an
integer on each side of the bound. -/
theorem witness_ResultsOverflowFromTheMidpoint :
    fpOverflowBound Format.binary32 = (2 ^ 25 - 1) * 2 ^ 252 ∧
    fpFinite Format.binary32 0x7F7FFFFF#32 = true ∧ fpFinite Format.binary32 0xFF7FFFFF#32 = true ∧
    fpFinite Format.binary32 0x00000001#32 = true ∧ fpValue Format.binary32 0x00000001#32 ≠ 0 ∧
    (let v := fpValue Format.binary32
     fpOverflowBound Format.binary32 * 1 ≤ (v 0x7F7FFFFF#32 + v 0x7F7FFFFF#32).natAbs ∧
     fpOverflowBound Format.binary32 * 1 ≤ (v 0xFF7FFFFF#32 - v 0x7F7FFFFF#32).natAbs ∧
     fpOverflowBound Format.binary32 * (v 0x00000001#32).natAbs ≤
       (v 0x7F7FFFFF#32).natAbs * fpUnit Format.binary32 ∧
     (v 0x7F7FFFFF#32 + v 0x00000001#32).natAbs < fpOverflowBound Format.binary32 * 1 ∧
     (v 0x7F7FFFFF#32 - v 0x7F7FFFFF#32).natAbs < fpOverflowBound Format.binary32 * 1 ∧
     (v 0x00000001#32).natAbs * fpUnit Format.binary32 <
       fpOverflowBound Format.binary32 * (v 0x00000001#32).natAbs) ∧
    2 ^ 127 * fpUnit Format.binary32 < fpOverflowBound Format.binary32 * 1 ∧
    fpOverflowBound Format.binary32 * 1 ≤ 2 ^ 128 * fpUnit Format.binary32 := by decide +kernel

/-- In binary64, from the largest finite value. -/
theorem witness_ResultsOverflowFromTheMidpoint_binary64 :
    fpFinite Format.binary64 0x7FEFFFFFFFFFFFFF#64 = true ∧
    (let v := fpValue Format.binary64 0x7FEFFFFFFFFFFFFF#64
     v.natAbs < fpOverflowBound Format.binary64 ∧
     fpOverflowBound Format.binary64 ≤ (v + v).natAbs) := by decide +kernel

theorem witness_RationalsRoundToNearestEven :
    fpFinite Format.binary32 (fpOfRatio Format.binary32 true 1 3) = true ∧
      fpFinite Format.binary64 (fpOfRatio Format.binary64 true 1 3) = true := by decide +kernel

theorem witness_InfinityAndZeroArithmetic :
    fpUnpack Format.binary32 0x7F800000#32 = .inf false ∧
    fpUnpack Format.binary32 0xFF800000#32 = .inf (!false) ∧
    fpUnpack Format.binary32 0x80000001#32 = .fin true 1 ∧
    fpUnpack Format.binary32 0x80000000#32 = .fin true 0 ∧
    fpUnpack Format.binary64 0xFFF0000000000000#64 = .inf true ∧
    fpUnpack Format.binary64 0x0000000000000001#64 = .fin false 1 ∧
    fpUnpack Format.binary64 0x0000000000000000#64 = .fin false 0 := by decide +kernel

/-- The largest finite value twice, and with the value that just does not carry it over. -/
theorem witness_SumOverflowsToInfinity :
    fpFinite Config.fmt 0x7F7FFFFF#32 = true ∧ fpFinite Config.fmt 0x73000000#32 = true ∧
      fpFinite Config.fmt 0x72FFFFFF#32 = true ∧
      (2 ^ 25 - 1) * 2 ^ 252 ≤ |fpValue Config.fmt 0x7F7FFFFF#32 + fpValue Config.fmt 0x73000000#32| ∧
      |fpValue Config.fmt 0x7F7FFFFF#32 + fpValue Config.fmt 0x72FFFFFF#32| <
        (2 ^ 25 - 1) * 2 ^ 252 := by decide +kernel

theorem witness_InvalidOperationsGiveNan :
    (fpUnpack Format.binary32 0x7F800001#32 = .nan ∧
      fpUnpack Format.binary32 0x7F800000#32 = .inf false ∧
      fpUnpack Format.binary32 0xFF800000#32 = .inf (!false) ∧
      fpUnpack Format.binary32 0x00000000#32 = .fin false 0 ∧
      fpUnpack Format.binary32 0x80000000#32 = .fin true 0) ∧
    (fpUnpack Format.binary64 0x7FF0000000000001#64 = .nan ∧
      fpUnpack Format.binary64 0x7FF0000000000000#64 = .inf false ∧
      fpUnpack Format.binary64 0xFFF0000000000000#64 = .inf (!false) ∧
      fpUnpack Format.binary64 0x0000000000000000#64 = .fin false 0 ∧
      fpUnpack Format.binary64 0x8000000000000000#64 = .fin true 0) := by decide +kernel

/-- The ends of the draw's range and the ends of each clause. -/
theorem witness_UnscaledValueOfADraw :
    ∀ r ∈ [(-2147483648 : Int), -2147483584, -16777216, 0, 16777216, 2147483584, 2147483647],
      -2 ^ 31 ≤ r ∧ r < 2 ^ 31 := by decide

theorem witness_RescalerDivisors :
    -2 ^ 31 ≤ (-2147483648 : Int) ∧ (-2147483648 : Int) < 2 ^ 31 ∧
      ((6 : Fin 9) = 0 ∨ (6 : Fin 9) = 2 ∨ (6 : Fin 9) = 6) := by decide

theorem witness_RefreshedSlotRange :
    -2 ^ 31 ≤ (2147483647 : Int) ∧ (2147483647 : Int) < 2 ^ 31 := by decide

theorem witness_EveryStepKeepsTheInvariant :
    State.reset.Inv ∧
      step (withPort 0b10#2 false) = .next (tick (produceSample (withPort 0b10#2 false))) :=
  ⟨by decide, rfl⟩

theorem witness_SampleIsExactlyHalf :
    State.reset.Inv ∧ State.reset.init = true ∧ fpFinite Config.fmt State.reset.OUT = true := by decide

theorem witness_NoDivisionByZeroNoUnderflow :
    State.reset.Inv ∧ State.reset.init = true ∧ fpOfIntCond Config.fmt 2 ∈ nextConds State.reset := by
  refine ⟨by decide, rfl, ?_⟩
  simp [nextConds]

/-- The first `NEXT` after reset: both sums are exact. -/
theorem witness_ExactSumsKeepTheRunningSum :
    State.reset.Inv ∧ fpFinite Config.fmt State.reset.OUT = true ∧
    exec .next State.reset = .next (produceSample State.reset) ∧
    (fpSubCond Config.fmt State.reset.OUT (readHold State.reset (octave State.reset))).inexact = false ∧
    (fpAddCond Config.fmt
      (fpSub Config.fmt State.reset.OUT (readHold State.reset (octave State.reset)))
      (readHold (produceSample State.reset) (octave State.reset))).inexact = false :=
  ⟨by decide, by decide, rfl, by decide, by decide⟩

theorem witness_DriftWithinTheFirstNexts :
    2 ^ 23 ≤ 2 ^ 23 ∧ 2 ^ 23 - 1 < 2 ^ 23 ∧
      fpOfIntCond Config.fmt 2 ∈ nextConds (initRegs State.powerOn) := by
  refine ⟨by decide, by decide, ?_⟩
  simp [nextConds]

theorem witness_EveryStepKeepsTheDriftBound :
    (withPort 0b10#2 false).Inv ∧ (withPort 0b10#2 false).init = true ∧
      DriftOk 0 (withPort 0b10#2 false) ∧ DriftOk (2 ^ 23 - 1) (withPort 0b10#2 false) ∧
      2 ^ 23 - 1 < 2 ^ 23 ∧
      exec .next (withPort 0b10#2 false) = .next (produceSample (withPort 0b10#2 false)) ∧
      step (withPort 0b10#2 false) = .next (tick (produceSample (withPort 0b10#2 false))) :=
  ⟨by decide, rfl, by decide, by decide, by decide, rfl, rfl⟩

theorem witness_DriftBoundHoldsAtReset :
    exec .init State.powerOn = .next (initRegs State.powerOn) := rfl

theorem witness_RecordedStopHolds :
    ({ runAt State.reset with mark := some (.faulted (.uninitialised 1)) } : Run).mark =
      some (.faulted (.uninitialised 1)) := rfl

theorem witness_StopsAreRecorded :
    (runAt (bottomWithPort 0b11#2 false)).mark = none ∧
    (portNow (bottomWithPort 0b11#2 false)).rst = false ∧
    (portNow (bottomWithPort 0b11#2 false)).cmd = 0b11#2 ∧
    (runAt (bottomWithPort 0b10#2 false)).mark = none ∧
    (portNow (bottomWithPort 0b10#2 false)).rst = false ∧
    (portNow (bottomWithPort 0b10#2 false)).cmd = 0b10#2 ∧
    (bottomWithPort 0b10#2 false).init = false := by decide

theorem witness_StepsPerformTheCommandsInOrder :
    execAll [.init, .idle] State.powerOn = .next (initRegs State.powerOn) := rfl

theorem witness_InitIsIndistinguishableFromReset :
    exec .init State.powerOn = .next (initRegs State.powerOn) := rfl

theorem witness_HostReadsTheResult :
    exec .next State.reset = .next (produceSample State.reset) ∧
      exec .init State.reset = .next (initRegs State.reset) ∧
      State.reset.init = true ∧ exec .idle State.reset = .next State.reset ∧
      (portNow State.reset).rst = false ∧ decodeCmd (portNow State.reset).cmd = .idle ∧
      step State.reset = .next (tick State.reset) := ⟨rfl, rfl, rfl, rfl, rfl, by decide, rfl⟩

theorem witness_InstancesAreIndependent : (0 : Nat) ≠ 1 := by decide

theorem witness_PseudoInstructionsExpand : 1 ≤ 1 ∧ (Item.nextTimes 1).wf = true := by decide

end Sys2Proof.Tests
end

section
/-! PROOFS. What `INIT` and a step with `RST` leave in the registers, and the values after reset
(10_state R35). -/

namespace Sys2Proof.Machine

@[simp] theorem exec_init (s : State) : exec .init s = .next (initRegs s) := rfl

/-- `RST` comes before the command on the port (60_exceptions R155). -/
theorem step_of_rst {s : State} (h : (portNow s).rst = true) : step s = .next (tick (initRegs s)) := by
  simp [step, stepOn, h]

theorem SameRegs.trans {s t u : State} (h : SameRegs s t) (h' : SameRegs t u) : SameRegs s u := by
  obtain ⟨h1, h2, h3, h4, h5, h6, h7, h8⟩ := h
  obtain ⟨k1, k2, k3, k4, k5, k6, k7, k8⟩ := h'
  exact ⟨h1.trans k1, h2.trans k2, h3.trans k3, h4.trans k4, h5.trans k5, h6.trans k6, h7.trans k7,
    h8.trans k8⟩

/-- Counting a step touches no register. -/
theorem tick_sameRegs (s : State) : SameRegs (tick s) s := ⟨rfl, rfl, rfl, rfl, rfl, rfl, rfl, rfl⟩

/-- The registers after `INIT` do not depend on the state before it. -/
theorem initRegs_sameRegs_reset (s : State) : SameRegs (initRegs s) State.reset :=
  ⟨rfl, rfl, rfl, rfl, rfl, rfl, rfl, rfl⟩

@[simp] theorem readHold_reset (k : Fin 9) : readHold State.reset k = 0 := by
  have h : State.reset.HOLD = (initRegs State.reset).HOLD := rfl
  rw [readHold_congr h, readHold_initRegs]

/-- Settles O10: `INIT` and `RST` both leave `initRegs`, whose registers are those of `State.reset`. -/
theorem resetValues : Obligations.ResetValues := by
  refine ⟨⟨rfl, rfl, rfl, rfl, rfl, rfl, readHold_reset, rfl⟩, fun s => ⟨?_, fun hrst => ?_⟩⟩
  · exact ⟨initRegs s, exec_init s, initRegs_sameRegs_reset s⟩
  · exact ⟨tick (initRegs s), step_of_rst hrst,
      (tick_sameRegs _).trans (initRegs_sameRegs_reset s)⟩

end Sys2Proof.Machine
end

section
/-! PROOFS. The command words of the table (30_encoding R73) and what the pseudo-instructions expand to
(30_encoding R79). -/

namespace Sys2Proof.Machine

/-! ### Command words -/

/-- The decoder undoes the encoder on every row of the table (30_encoding R73). -/
@[simp] theorem decodeCmd_encode (i : Instr) : decodeCmd (encode i) = i := by
  cases i with
  | idle => rfl
  | init => rfl
  | next => rfl
  | rsvd => rfl

/-- Settles O1: the encoder's four words are the table's, and the decoder reads them back. -/
theorem commandWordsOfTheTable : Obligations.CommandWordsOfTheTable :=
  ⟨⟨decodeCmd_encode .idle, decodeCmd_encode .init, decodeCmd_encode .next, decodeCmd_encode .rsvd⟩,
    rfl, rfl, rfl, rfl⟩

/-! ### Pseudo-instructions -/

theorem expandItem_nextTimes {k : Nat} (hk : 1 ≤ k) :
    expandItem (.nextTimes k) = .ok (List.replicate k (cmdPort .next)) :=
  if_neg (Nat.one_le_iff_ne_zero.mp hk)

theorem expandItem_idleTimes {k : Nat} (hk : 1 ≤ k) :
    expandItem (.idleTimes k) = .ok (List.replicate k (cmdPort .idle)) :=
  if_neg (Nat.one_le_iff_ne_zero.mp hk)

@[simp] theorem expandItem_nextTimes_zero : expandItem (.nextTimes 0) = .error .zeroRepeat := rfl

@[simp] theorem expandItem_idleTimes_zero : expandItem (.idleTimes 0) = .error .zeroRepeat := rfl

/-- A command has no operand that could be ill-formed (30_encoding R72). -/
@[simp] theorem instr_wf (i : Instr) : i.wf = true := by
  cases i with
  | idle => rfl
  | init => rfl
  | next => rfl
  | rsvd => rfl

/-- The assembler refuses exactly the ill-formed items, which are the repeats of zero. -/
theorem wf_iff_expandItem_ok (it : Item) : it.wf = true ↔ ∃ ps, expandItem it = .ok ps := by
  cases it with
  | cmd i => exact iff_of_true (instr_wf i) ⟨_, rfl⟩
  | reset => exact iff_of_true rfl ⟨_, rfl⟩
  | nextTimes k =>
    cases k with
    | zero => simp [Item.wf]
    | succ n => exact iff_of_true (by simp [Item.wf]) ⟨_, expandItem_nextTimes n.succ_pos⟩
  | idleTimes k =>
    cases k with
    | zero => simp [Item.wf]
    | succ n => exact iff_of_true (by simp [Item.wf]) ⟨_, expandItem_idleTimes n.succ_pos⟩

/-- What the reader of a listing refuses, the assembler refuses. -/
theorem assemble_of_parseListing_error {text : List Char} {e : ListingError}
    (h : parseListing text = .error e) : assemble text = .error e := by
  simp [assemble, h]

theorem parseListing_next_zero : parseListing "NEXT*0".toList = .error .zeroRepeat := by decide

theorem parseListing_idle_zero : parseListing "IDLE*0".toList = .error .zeroRepeat := by decide

/-- Settles O45: `expandItem` makes the copies, and both it and the reader of a listing refuse a repeat
of zero. -/
theorem pseudoInstructionsExpand : Obligations.PseudoInstructionsExpand :=
  ⟨fun _ hk => ⟨expandItem_nextTimes hk, expandItem_idleTimes hk⟩,
    expandItem_nextTimes_zero, expandItem_idleTimes_zero,
    assemble_of_parseListing_error parseListing_next_zero,
    assemble_of_parseListing_error parseListing_idle_zero,
    wf_iff_expandItem_ok⟩

end Sys2Proof.Machine
end

section
/-! PROOFS. One draw in whole numbers modulo 2^64 (40_prng R101, R102): the natural number each word of
the draw stands for. -/

namespace Sys2Proof.Machine

theorem drawW_toNat (w s : U64) : (drawW w s).toNat = (w.toNat + s.toNat) % 2 ^ 64 :=
  BitVec.toNat_add w s

theorem drawSum_toNat (x w s : U64) :
    (drawSum x w s).toNat =
      (x.toNat * x.toNat % 2 ^ 64 + (w.toNat + s.toNat) % 2 ^ 64) % 2 ^ 64 := by
  rw [drawSum, BitVec.toNat_add, BitVec.toNat_mul, drawW_toNat]

theorem lowHalf_toNat (v : U64) : (v.extractLsb' 0 32).toNat = v.toNat % 2 ^ 32 := by
  rw [BitVec.extractLsb'_toNat, Nat.shiftRight_zero]

/-- The high half needs no reduction: a 64-bit word is below 2^64. -/
theorem highHalf_toNat (v : U64) : (v.extractLsb' 32 32).toNat = v.toNat / 2 ^ 32 := by
  rw [BitVec.extractLsb'_toNat, Nat.shiftRight_eq_div_pow]
  omega

/-- Swapping the halves puts the low half above the high one, and the two do not overlap. -/
theorem rot32_toNat (v : U64) :
    (rot32 v).toNat = v.toNat % 2 ^ 32 * 2 ^ 32 + v.toNat / 2 ^ 32 := by
  have hhigh : v.toNat / 2 ^ 32 < 2 ^ 32 := by omega
  rw [rot32, BitVec.toNat_append, lowHalf_toNat, highHalf_toNat,
    ← Nat.shiftLeft_add_eq_or_of_lt hhigh, Nat.shiftLeft_eq]

/-- The number drawn, from the natural number of the folded word (40_prng R102). -/
theorem drawResult_eq (x3 : U64) :
    drawResult x3 = if x3.toNat % 2 ^ 32 < 2 ^ 31 then ((x3.toNat % 2 ^ 32 : Nat) : Int)
      else ((x3.toNat % 2 ^ 32 : Nat) : Int) - 2 ^ 32 := by
  rw [drawResult, sint32, lowHalf_toNat]

/-- Settles O19: `W` and `X` after the draw stand for the statement's numbers, and the draw writes
nothing else. -/
theorem drawInWholeNumbers : Obligations.DrawInWholeNumbers := by
  intro s x1 w1 x2 x3
  have hW : (drawW s.W s.S).toNat = w1 := drawW_toNat s.W s.S
  have hX : (drawX s.X s.W s.S).toNat = x3 := by
    rw [drawX, rot32_toNat, drawSum_toNat]
  refine ⟨?_, hX, hW, ?_⟩
  · simp [draw_fst, writePrng, ← hX, ← hW]
  · rw [draw_snd, drawResult_eq, hX]

end Sys2Proof.Machine
end

section
/-! PROOFS. What each command of the table answers (41_accumulator R122, R123, R128, R129), and the
reserved word on the port (60_exceptions R150, R155). -/

namespace Sys2Proof.Machine

/-! ### `IDLE` and `INIT` -/

@[simp] theorem exec_idle (s : State) : exec .idle s = .next s := rfl

/-- Settles O12: the answer of `IDLE` is the state it was given. -/
theorem idleChangesNothing : Obligations.IdleChangesNothing := exec_idle

/-- The registers after `INIT`, by value (10_state R35). -/
theorem initRegs_eq (s : State) :
    initRegs s =
      { init := true, S := 0x2252E7CD98846FDD#64, X := 0, W := 0, CNT := 0, OUT := 0x00000000#32,
        HOLD := Vector.replicate 9 0x00000000#32, SAMPLE := 0x00000000#32,
        ports := s.ports, steps := s.steps } := rfl

/-- Settles O13: `INIT` answers `initRegs`, which names every register. -/
theorem initWritesEveryRegister : Obligations.InitWritesEveryRegister := by
  intro s
  rw [exec_init, initRegs_eq]

/-! ### `NEXT` -/

theorem exec_next_of_init {s : State} (h : s.init = true) :
    exec .next s = .next (produceSample s) :=
  if_pos h

theorem exec_next_of_bottom {s : State} (h : s.init = false) :
    exec .next s = .fault (.uninitialised (s.steps + 1)) :=
  if_neg (by simp [h])

/-- Settles O16: `produceSample_eq` gives every register after `NEXT`, the stale slot being the one of the
old hold file; the values in it are those of the pseudocode. -/
theorem nextProducesTheSample : Obligations.NextProducesTheSample := by
  intro s
  refine ⟨fun hinit => ?_, exec_next_of_bottom⟩
  rw [exec_next_of_init hinit, produceSample_eq]
  simp only [newOut, newHold, rescaled, unscaled, halved, Config.dmax, octave, readHold,
    draw_snd, drawResult, drawX, drawSum, drawW]

/-! ### The reserved word -/

@[simp] theorem exec_rsvd (s : State) :
    exec .rsvd s = .refused (.reservedCommand 0b11#2 (s.steps + 1)) := rfl

/-- Without `RST` a step is the decoded command, counted if it completes (60_exceptions R155). -/
theorem step_of_not_rst {s : State} (h : (portNow s).rst = false) :
    step s = onNext (exec (decodeCmd (portNow s).cmd) s) fun t => .next (tick t) := by
  simp [step, stepOn, h]

theorem step_of_reserved {s : State} (hcmd : (portNow s).cmd = 0b11#2)
    (hrst : (portNow s).rst = false) :
    step s = .refused (.reservedCommand 0b11#2 (s.steps + 1)) := by
  have hdec : decodeCmd 0b11#2 = .rsvd := decodeCmd_encode .rsvd
  rw [step_of_not_rst hrst, hcmd, hdec, exec_rsvd, onNext_refused]

/-- A refusal is recorded over the run as it stands (60_exceptions R150). -/
theorem runStep_of_refused {r : Run} {e : Refusal} (hmark : r.mark = none)
    (hstep : step r.state = .refused e) : runStep r = { r with mark := some (.refused e) } := by
  simp [runStep, hmark, hstep]

/-- Settles O15: the step decodes the reserved word and refuses it, and a run records the refusal; with
`RST` the step is the reset. -/
theorem reservedWordIsRefused : Obligations.ReservedWordIsRefused := by
  refine fun s => ⟨exec_rsvd s, fun hcmd => ⟨step_of_reserved hcmd, fun hrst => ?_⟩, ?_⟩
  · exact ⟨tick (initRegs s), step_of_rst hrst⟩
  · rintro r rfl hmark hcmd hrst
    exact runStep_of_refused hmark (step_of_reserved hcmd hrst)

end Sys2Proof.Machine
end

section
/-! PROOFS. The octave selector (41_accumulator R120): it is a search for the first set bit, so what
selects a slot is a residue of the counter, and residues are counted by arithmetic. -/

namespace Sys2Proof.Machine

/-! ### The least set bit -/

/-- The cascade of `tz8` is the search for the first set bit, from bit 0 up: pushing the cascade through
the value of the slot, and the counting through the search, leaves the same nested choice. -/
theorem tz8_eq_findIdx (c : U8) :
    (tz8 c).val = (List.finRange 8).findIdx fun i => c.getLsbD i.val := by
  simp only [tz8, List.finRange_succ, List.finRange_zero, List.map, List.findIdx_cons,
    List.findIdx_nil, Bool.cond_eq_ite, apply_ite Fin.val, apply_ite (· + 1)]
  rfl

theorem tz8_eq_iff_least (c : U8) (i : Fin 8) :
    (tz8 c).val = i.val ↔
      c.getLsbD i.val = true ∧ ∀ j : Fin 8, j.val < i.val → c.getLsbD j.val = false := by
  rw [tz8_eq_findIdx, List.findIdx_eq (by simp)]
  simp only [List.getElem_finRange, Fin.forall_iff]
  exact and_congr .rfl ⟨fun h j _ hj => h j hj, fun h j hj => h j (by omega) hj⟩

/-- The sentinel stands for no set bit. -/
theorem tz8_eq_eight_iff (c : U8) :
    (tz8 c).val = 8 ↔ ∀ j : Fin 8, c.getLsbD j.val = false := by
  have hlen : (List.finRange 8).length = 8 := List.length_finRange
  rw [tz8_eq_findIdx]
  simpa [hlen] using List.findIdx_eq_length (xs := List.finRange 8) (p := fun i => c.getLsbD i.val)

/-! ### The counters that select a slot -/

/-- Congruence modulo a power of two is agreement of the low bits. -/
theorem modEq_two_pow_iff_testBit (a b m : Nat) :
    a ≡ b [MOD 2 ^ m] ↔ ∀ j < m, a.testBit j = b.testBit j := by
  rw [Nat.ModEq, Nat.eq_iff_testBit_eq]
  refine forall_congr' fun j => ?_
  by_cases hj : j < m <;> simp [Nat.testBit_mod_two_pow, hj]

/-- Slot `k` up to 7 is selected at the counters congruent to `2^k` modulo `2^(k+1)`; for slot 8 the
modulus stays at 256, where `2^8` is zero. -/
theorem tz8_eq_iff_modEq (c : U8) (k : Fin 9) :
    tz8 c = k ↔ c.toNat ≡ 2 ^ k.val [MOD 2 ^ min (k.val + 1) 8] := by
  rw [modEq_two_pow_iff_testBit, Fin.ext_iff]
  simp only [BitVec.testBit_toNat, Nat.testBit_two_pow]
  by_cases hk : k.val = 8
  · rw [hk, tz8_eq_eight_iff, Fin.forall_iff]
    refine forall₂_congr fun j hj => ?_
    rw [decide_eq_false (by omega)]
  · rw [show min (k.val + 1) 8 = k.val + 1 by omega, Nat.forall_lt_succ_right,
      tz8_eq_iff_least c ⟨k.val, by omega⟩, Fin.forall_iff, and_comm, decide_eq_true rfl]
    refine and_congr ⟨fun h j hj => ?_, fun h j _ hj => ?_⟩ .rfl
    · rw [h j (by omega) hj, decide_eq_false (by omega)]
    · rw [h j hj, decide_eq_false (by simp at hj; omega)]

/-! ### The table -/

/-- The spec's 256 entries: a row is a value of the high four bits, and only its first entry depends
on the row. -/
theorem tz8_table (c : U8) : (tz8 c).val =
    if c.toNat % 16 = 0 then
      [8, 4, 5, 4, 6, 4, 5, 4, 7, 4, 5, 4, 6, 4, 5, 4].getD (c.toNat / 16) 0
    else [0, 0, 1, 0, 2, 0, 1, 0, 3, 0, 1, 0, 2, 0, 1, 0].getD (c.toNat % 16) 0 := by
  revert c
  decide

/-- The number of counters in one residue class: 256 divided by its modulus. -/
theorem length_filter_tz8 (k : Fin 9) :
    ((List.range 256).filter fun c => tz8 (BitVec.ofNat 8 c) = k).length =
      256 / 2 ^ min (k.val + 1) 8 := by
  have hdvd : 2 ^ min (k.val + 1) 8 ∣ 256 := Nat.pow_dvd_pow 2 (Nat.min_le_right _ 8)
  have hcongr : ∀ c ∈ List.range 256, decide (tz8 (BitVec.ofNat 8 c) = k) =
      decide (c ≡ 2 ^ k.val [MOD 2 ^ min (k.val + 1) 8]) := by
    intro c hc
    have hnat : (BitVec.ofNat 8 c).toNat = c := Nat.mod_eq_of_lt (List.mem_range.mp hc)
    simp [tz8_eq_iff_modEq, hnat]
  rw [List.filter_congr hcongr, ← List.countP_eq_length_filter]
  have hcount := Nat.count_modEq_card 256 (Nat.two_pow_pos (min (k.val + 1) 8)) (2 ^ k.val)
  rwa [Nat.mod_eq_zero_of_dvd hdvd, if_neg (Nat.not_lt_zero _)] at hcount

theorem tz8_counts (k : Fin 9) :
    ((List.range 256).filter fun c => tz8 (BitVec.ofNat 8 c) = k).length =
      [128, 64, 32, 16, 8, 4, 2, 1, 1].getD k.val 0 := by
  rw [length_filter_tz8]
  revert k
  decide

/-- Settles O21: the table entry by entry, the size of each residue class, and the definition of the
selector as the least set bit. -/
theorem selectorTable : Obligations.SelectorTable :=
  ⟨tz8_table, tz8_counts, fun c => ⟨tz8_eq_iff_least c, tz8_eq_eight_iff c⟩⟩

end Sys2Proof.Machine
end

section
/-! PROOFS. The two stops of a step (60_exceptions R150, R151): their place in the order of R155, their
record in a run, and that the record holds (R152). -/

namespace Sys2Proof.Machine

/-! ### Within one step -/

/-- Every 2-bit value is the word of the command it decodes to (30_encoding R73). -/
@[simp] theorem encode_decodeCmd (w : U2) : encode (decodeCmd w) = w := by
  revert w
  decide

theorem step_of_next_bottom {s : State} (hrst : (portNow s).rst = false)
    (hcmd : (portNow s).cmd = 0b10#2) (hinit : s.init = false) :
    step s = .fault (.uninitialised (s.steps + 1)) := by
  have hdec : decodeCmd 0b10#2 = .next := decodeCmd_encode .next
  rw [step_of_not_rst hrst, hcmd, hdec, exec_next_of_bottom hinit, onNext_fault]

/-- The reserved word and `NEXT` in ⊥ are the only words without a next state (60_exceptions R153). -/
theorem exec_decodeCmd_completes {w : U2} {s : State} (hrsvd : w ≠ 0b11#2)
    (hbottom : ¬(w = 0b10#2 ∧ s.init = false)) : ∃ t, exec (decodeCmd w) s = .next t := by
  rcases exec_cases (decodeCmd w) s with hnext | ⟨hdec, hinit, -⟩ | ⟨hdec, -⟩
  · exact hnext
  · have hw : w = encode .next := by rw [← hdec, encode_decodeCmd]
    exact absurd ⟨hw, hinit⟩ hbottom
  · have hw : w = encode .rsvd := by rw [← hdec, encode_decodeCmd]
    exact absurd hw hrsvd

/-- Settles O7: a step is the reset or the decoded command, and the command stops in the two stated
cases alone. -/
theorem priorityWithinOneStep : Obligations.PriorityWithinOneStep := by
  refine fun s => ⟨step_of_rst, fun hrst hcmd => step_of_reserved hcmd hrst, step_of_next_bottom,
    fun hrst hrsvd hbottom => ?_⟩
  obtain ⟨t, ht⟩ := exec_decodeCmd_completes hrsvd hbottom
  exact ⟨t, ht, by rw [step_of_not_rst hrst, ht, onNext_next]⟩

/-! ### Along a run -/

theorem runStep_of_mark {r : Run} {m : Mark} (hmark : r.mark = some m) : runStep r = r := by
  simp [runStep, hmark]

/-- A mark is a fixed point of the run (60_exceptions R152). -/
theorem runFor_of_mark {r : Run} {m : Mark} (hmark : r.mark = some m) (n : Nat) :
    runFor n r = r := by
  induction n with
  | zero => rfl
  | succ n ih => rw [runFor, runStep_of_mark hmark, ih]

theorem finalState_of_mark {r : Run} {m : Mark} (hmark : r.mark = some m) :
    finalState r = none := by
  simp [finalState, hmark]

/-- Settles O37: a marked run is a fixed point of its step, and `finalState` gives no state for it. -/
theorem recordedStopHolds : Obligations.RecordedStopHolds :=
  fun _ _ n hmark => ⟨runFor_of_mark hmark n, finalState_of_mark hmark⟩

/-- A fault is recorded over the run as it stands (60_exceptions R151). -/
theorem runStep_of_fault {r : Run} {e : Fault} (hmark : r.mark = none)
    (hstep : step r.state = .fault e) : runStep r = { r with mark := some (.faulted e) } := by
  simp [runStep, hmark, hstep]

/-- Settles O38: the step stops in the order of R155, the run records the stop and nothing else, and a recorded
stop holds. -/
theorem stopsAreRecorded : Obligations.StopsAreRecorded := by
  refine fun r hmark hrst => ⟨fun hcmd => ?_, fun hcmd hinit => ?_⟩
  · have hstep := step_of_reserved hcmd hrst
    have hrun := runStep_of_refused hmark hstep
    exact ⟨hrun, by rw [hstep, reasonCode], runFor_of_mark (by rw [hrun])⟩
  · have hstep := step_of_next_bottom hrst hcmd hinit
    have hrun := runStep_of_fault hmark hstep
    exact ⟨hrun, by rw [hstep, reasonCode], runFor_of_mark (by rw [hrun])⟩

end Sys2Proof.Machine
end

section
/-! PROOFS. Reset takes precedence over the command on the port (70_reset R170, R171). -/

namespace Sys2Proof.Machine

/-- Settles O6: with `RST` the step is the counted `initRegs`, whatever the command; `initRegs` is what
`INIT` answers, and `initRegs_eq` gives its registers by value. -/
theorem resetTakesPrecedence : Obligations.ResetTakesPrecedence := by
  intro s hrst
  have hstep : step s = .next (tick (initRegs s)) := step_of_rst hrst
  refine ⟨?_, initRegs s, exec_init s, hstep⟩
  rw [hstep, initRegs_eq, tick]

end Sys2Proof.Machine
end

section
/-! PROOFS. What a refreshed slot holds, whatever is drawn (41_accumulator R126, R131 to R133). -/

namespace Sys2Proof.Machine

/-! ### The grid of large magnitudes -/

/-- A value of at least `2 ^ (fracBits + j)` quanta has all its significant bits from bit `j` up. -/
theorem dvd_fpQuanta_of_le (f : Format) {j mag : Nat} (h : 2 ^ (f.fracBits + j) ≤ fpQuanta f mag) :
    2 ^ j ∣ fpQuanta f mag := by
  obtain ⟨e, q, rfl, hlo, hhi⟩ := mag_split f mag
  rw [fpQuanta_mk f hlo hhi.le] at h ⊢
  have hlt : 2 ^ (f.fracBits + j) < 2 ^ (f.fracBits + 1 + e) := by
    calc 2 ^ (f.fracBits + j) ≤ q * 2 ^ e := h
      _ < 2 * 2 ^ f.fracBits * 2 ^ e := (Nat.mul_lt_mul_right (Nat.two_pow_pos e)).2 hhi
      _ = 2 ^ (f.fracBits + 1 + e) := by rw [Nat.pow_add, Nat.pow_succ']
  have hj : f.fracBits + j < f.fracBits + 1 + e := (Nat.pow_lt_pow_iff_right (by decide)).1 hlt
  exact Dvd.dvd.mul_left (Nat.pow_dvd_pow 2 (by omega)) q

/-- 1.0 divided by the divisor of a slot is finite. -/
theorem slotCapMag_lt_infMag (k : Fin 9) :
    fpRoundMag Config.fmt (2 ^ 149) (k.val + 2) < fpInfMag Config.fmt := by
  revert k; decide

/-- 2^-31 divided by the largest divisor, 10, is still above 2^-35. -/
theorem le_quanta_rescaled {n : Nat} (hn : 0x30000000 ≤ n) (k : Fin 9) :
    2 ^ 114 ≤ fpQuanta Config.fmt (fpRoundMag Config.fmt (fpQuanta Config.fmt n) (k.val + 2)) := by
  have hq : 2 ^ 118 ≤ fpQuanta Config.fmt n := by
    have h := (fpQuanta_strictMono Config.fmt).monotone hn
    rwa [show fpQuanta Config.fmt 0x30000000 = 2 ^ 118 by decide] at h
  have hmono : fpRoundMag Config.fmt (2 ^ 118) 10 ≤
      fpRoundMag Config.fmt (fpQuanta Config.fmt n) (k.val + 2) :=
    roundMag_mono Config.fmt (by decide) (by omega) (Nat.mul_le_mul hq (by omega))
  calc 2 ^ 114 ≤ fpQuanta Config.fmt (fpRoundMag Config.fmt (2 ^ 118) 10) := by decide
    _ ≤ _ := (fpQuanta_strictMono Config.fmt).monotone hmono

/-- The new value of a slot as a sign and a magnitude `m`. -/
theorem newHold_spec (k : Fin 9) {r : Int} (h1 : -2 ^ 31 ≤ r) (h2 : r < 2 ^ 31) :
    ∃ m, newHold Config.fmt k r = fpPack Config.fmt (decide (r < 0)) m ∧
      m ≤ fpRoundMag Config.fmt (2 ^ 149) (k.val + 2) ∧
      (r ≠ 0 → 2 ^ 114 ≤ fpQuanta Config.fmt m) ∧ (r = 0 → m = 0) := by
  obtain ⟨n, hn, hle, -, hzero, hlow, -⟩ := unscaled_spec h1 h2
  have hnfin : n < fpInfMag Config.fmt := by rw [fpInfMag_fmt]; omega
  have hcap : fpRoundMag Config.fmt (fpQuanta Config.fmt n) (k.val + 2) ≤
      fpRoundMag Config.fmt (2 ^ 149) (k.val + 2) := by
    have h := (fpQuanta_strictMono Config.fmt).monotone hle
    rw [show fpQuanta Config.fmt 0x3F800000 = 2 ^ 149 by decide] at h
    exact roundMag_mono Config.fmt (by omega) (by omega) (Nat.mul_le_mul_right _ h)
  refine ⟨_, by rw [newHold, hn, rescaled_fpPack k hnfin], hcap, fun hr => ?_, fun hr => ?_⟩
  · exact le_quanta_rescaled (hlow fun h => hr (hzero.1 h)) k
  · rw [hzero.2 hr, fpQuanta_zero, roundMag_zero]

/-- A finite pattern that is zero or at least 2^-35, within the cap and no negative zero is one a slot may
hold: the grid follows from the least magnitude. -/
theorem slotOk_fpPack {k : Fin 9} {s : Bool} {m : Nat}
    (hcap : m ≤ fpRoundMag Config.fmt (2 ^ 149) (k.val + 2))
    (hlow : m ≠ 0 → 2 ^ 114 ≤ fpQuanta Config.fmt m) (hneg : m = 0 → s = false) :
    SlotOk k (fpPack Config.fmt s m) := by
  have hfin : m < fpInfMag Config.fmt := hcap.trans_lt (slotCapMag_lt_infMag k)
  have hval := fpValue_fpPack Config.fmt s hfin
  have habs : (fpValue Config.fmt (fpPack Config.fmt s m)).natAbs = fpQuanta Config.fmt m := by
    rw [hval, natAbs_fpSigned]
  refine ⟨fpFinite_fpPack _ _ hfin, ⟨fun e => ?_, fun _ => ?_⟩, fun hne => ?_, ?_⟩
  · obtain ⟨rfl, rfl⟩ := fpPack_injective (hfin.trans (infMag_lt_signWeight _)) (by decide) e
    exact absurd (hneg rfl) (by decide)
  · rw [hval, dvd_fpSigned]
    rcases Nat.eq_zero_or_pos m with rfl | hpos
    · rw [fpQuanta_zero]; exact dvd_zero _
    · exact dvd_fpQuanta_of_le Config.fmt (hlow hpos.ne')
  · rw [habs]
    refine hlow ?_
    rintro rfl
    rw [hval, fpQuanta_zero] at hne
    cases s <;> exact hne rfl
  · rw [habs, slotCap_eq]
    exact_mod_cast (fpQuanta_strictMono Config.fmt).monotone hcap

/-- Settles O30: the rescaled draw is zero or keeps above 2^-35, so its grid follows, and only a
draw below zero gives it a sign. -/
theorem refreshedSlotRange : Obligations.RefreshedSlotRange := by
  intro k r h1 h2
  obtain ⟨m, hm, hcap, hlow, hzero⟩ := newHold_spec k h1 h2
  rw [hm]
  refine slotOk_fpPack hcap (fun hne => hlow fun hr => hne (hzero hr)) fun hm0 => ?_
  by_contra hneg
  have hr : r ≠ 0 := by rintro rfl; exact hneg rfl
  have hpos := hlow hr
  rw [hm0, fpQuanta_zero] at hpos
  exact absurd hpos (by decide)

end Sys2Proof.Machine
end

section
/-! PROOFS. The invariant of an initialised block (10_state R21, R27, 41_accumulator R131 to R133) and what
follows from it in one state. -/

namespace Sys2Proof.Machine

/-! ### The invariant along the steps -/

/-- What a `NEXT` puts in the selected slot. -/
theorem slotOk_fresh (s : State) : SlotOk (octave s) (newHold Config.fmt (octave s) (draw s).2) :=
  refreshedSlotRange (octave s) _ (draw_range s).1 (draw_range s).2

theorem init_produceSample {s : State} (hinit : s.init = true) : (produceSample s).init = true := by
  rw [produceSample_init, hinit]

theorem inv_produceSample {s : State} (hinv : s.Inv) (hinit : s.init = true) :
    (produceSample s).Inv := by
  intro _
  obtain ⟨hS, hslots, hout, -⟩ := hinv hinit
  obtain ⟨-, hstale, -⟩ := hslots (octave s)
  obtain ⟨-, hfresh, -⟩ := slotOk_fresh s
  refine ⟨by rw [produceSample_S, hS], fun k => ?_, ?_, produceSample_SAMPLE s⟩
  · rw [readHold_produceSample]
    split
    · next hk => rw [hk]; exact slotOk_fresh s
    · exact hslots k
  · rw [produceSample_OUT]
    exact onGrid_fpAdd (onGrid_fpSub hout hstale) hfresh

/-- Settles O32: a step is the reset, an idle step or a `NEXT`, and counting it touches no register. -/
theorem everyStepKeepsTheInvariant : Obligations.EveryStepKeepsTheInvariant := by
  intro s t hinv hstep
  rcases step_cases hstep with rfl | rfl | ⟨hinit, rfl⟩
  · exact inv_tick (inv_initRegs s)
  · exact inv_tick hinv
  · exact inv_tick (inv_produceSample hinv hinit)

/-- Settles O31: after reset the registers are those of `INIT`; at power-up nothing is asked. -/
theorem invariantHoldsAtReset : Obligations.InvariantHoldsAtReset := by
  refine ⟨inv_initRegs State.reset, fun hinit => ?_⟩
  exact absurd hinit (by decide)

end Sys2Proof.Machine
end

section
/-! PROOFS. The conditions of one `NEXT` and the exactness of its halving, from the grid of its terms
(10_state R31, 41_accumulator R130 to R133). -/

namespace Sys2Proof.Machine

/-! ### Halving a value on the grid -/

/-- A value on the grid is zero or far above the least normal value. -/
theorem mag_ge_of_onGrid {s : Bool} {mag : Nat} (hfin : mag < fpInfMag Config.fmt)
    (h : OnGrid (2 ^ 91) (fpPack Config.fmt s mag)) (h0 : mag ≠ 0) : 2 ^ 24 ≤ mag := by
  have hdvd := (h.of_fin (fpUnpack_fpPack_fin Config.fmt s hfin)).1
  have hle := Nat.le_of_dvd (fpQuanta_pos Config.fmt (Nat.pos_of_ne_zero h0)) (dvd_fpSigned.1 hdvd)
  by_contra hlt
  have hmono := fpQuanta_strictMono Config.fmt (not_le.1 hlt)
  have hq : fpQuanta Config.fmt (2 ^ 24) < 2 ^ 91 := by decide
  exact absurd (hle.trans_lt (hmono.trans hq)) (lt_irrefl _)

/-- Halving a value on the grid is exact and keeps its sign and whether it is zero. -/
theorem halved_onGrid {s : Bool} {mag : Nat} (hfin : mag < fpInfMag Config.fmt)
    (h : OnGrid (2 ^ 91) (fpPack Config.fmt s mag)) :
    ∃ m, halved Config.fmt (fpPack Config.fmt s mag) = fpPack Config.fmt s m ∧
      m < fpInfMag Config.fmt ∧ fpQuanta Config.fmt m * 2 = fpQuanta Config.fmt mag ∧
      (m = 0 → mag = 0) := by
  rw [halved_fpPack hfin]
  by_cases h0 : mag = 0
  · rw [h0, fpQuanta_zero, roundMag_zero]
    exact ⟨0, rfl, fpInfMag_fmt_pos, by rw [fpQuanta_zero], fun _ => rfl⟩
  · have hge := mag_ge_of_onGrid hfin h h0
    have hfrac : (1 + 1) * 2 ^ Config.fmt.fracBits ≤ mag := hge
    obtain ⟨hround, hexact⟩ := roundMag_div_pow Config.fmt (j := 1) hfin.le hfrac
    refine ⟨_, rfl, ?_, ?_, ?_⟩ <;> rw [hround]
    · omega
    · exact hexact
    · intro hsub
      have : mag ≤ 1 * 2 ^ 23 := Nat.sub_eq_zero_iff_le.1 hsub
      omega

/-- What is not finite has a half that is not negative zero. -/
theorem halved_ne_negZero_of_not_finite {b : Fp} (h : fpFinite Config.fmt b = false) :
    halved Config.fmt b ≠ fpPack Config.fmt true 0 := by
  unfold halved fpDiv
  rw [fpUnpack_two]
  cases hu : fpUnpack Config.fmt b with
  | nan => exact (onGrid_nan _ _ _).1
  | inf s => exact (onGrid_inf _).1
  | fin s q => rw [(fpFinite_iff _ _).2 ⟨s, q, hu⟩] at h; cases h

/-- A finite pattern as a sign and a magnitude. -/
theorem exists_fpPack_of_finite {b : Fp} (h : fpFinite Config.fmt b = true) :
    ∃ s mag, mag < fpInfMag Config.fmt ∧ b = fpPack Config.fmt s mag := by
  obtain ⟨s, q, hu⟩ := (fpFinite_iff Config.fmt b).1 h
  obtain ⟨mag, hfin, -, hb⟩ := fpPack_of_fpUnpack Config.fmt hu
  exact ⟨s, mag, hfin, hb⟩

/-- Settles O33: `OUT` is on the grid, where halving is exact; off the finite values a half is a NaN or
an infinity. -/
theorem sampleIsExactlyHalf : Obligations.SampleIsExactlyHalf := by
  intro s hinv hinit
  obtain ⟨-, -, hout, hsample⟩ := hinv hinit
  change s.SAMPLE ≠ fpPack Config.fmt true 0 ∧ _
  rw [hsample]
  cases hf : fpFinite Config.fmt s.OUT with
  | false => exact ⟨halved_ne_negZero_of_not_finite hf, by simp⟩
  | true =>
    obtain ⟨neg, mag, hfin, hb⟩ := exists_fpPack_of_finite hf
    rw [hb] at hout ⊢
    obtain ⟨m, hm, hmfin, hhalf, hzero⟩ := halved_onGrid hfin hout
    rw [hm]
    refine ⟨fun e => ?_, fun _ => ⟨fpFinite_fpPack _ _ hmfin, ?_⟩⟩
    · obtain ⟨rfl, rfl⟩ := fpPack_injective (hmfin.trans (infMag_lt_signWeight _)) (by decide) e
      exact hout.1 (by rw [hzero rfl])
    · rw [fpValue_fpPack _ _ hmfin, fpValue_fpPack _ _ hfin, ← hhalf]
      cases neg <;> simp [fpSigned] <;> ring

/-! ### The conditions of the operations of a `NEXT` -/

/-- A condition without division by zero and without underflow. -/
def FpCond.Calm (c : FpCond) : Prop := c.divByZero = false ∧ c.underflow = false

/-- A condition without overflow that is not invalid. -/
def FpCond.Bounded (c : FpCond) : Prop := c.overflow = false ∧ c.invalid = false

theorem fpRoundCond_calm (f : Format) {num den : Nat} (h : num ≠ 0 → 2 ^ f.fracBits * den ≤ num) :
    (fpRoundCond f num den).Calm := by
  refine ⟨rfl, decide_eq_false ?_⟩
  rintro ⟨hne, hlt⟩
  exact absurd (h hne) (not_le.2 hlt)

theorem fpRoundCond_bounded (f : Format) (hf : 2 ≤ f.expBits) {num den : Nat} (hd : 0 < den)
    (h : num < fpOverflowBound f * den) : (fpRoundCond f num den).Bounded :=
  ⟨decide_eq_false ((roundMag_lt_infMag_iff f hf hd).2 h).ne, rfl⟩

/-- A rounding is exact when it is finite and delivers the number rounded. -/
theorem fpRoundCond_exact_iff (f : Format) (num den : Nat) :
    (fpRoundCond f num den).inexact = false ↔
      fpRoundMag f num den < fpInfMag f ∧ fpQuanta f (fpRoundMag f num den) * den = num := by
  have hle := roundMag_le f num den
  simp only [fpRoundCond, decide_eq_false_iff_not, not_or, not_not, lt_iff_le_and_ne, hle, true_and,
    Ne]

/-- A whole number, in quanta, is zero or far above the least normal value. -/
theorem fpOfIntCond_calm (n : Int) : (fpOfIntCond Config.fmt n).Calm := by
  refine fpRoundCond_calm _ fun hne => ?_
  have hn : 1 ≤ n.natAbs := Nat.one_le_iff_ne_zero.2 fun h => hne (by rw [h, Nat.zero_mul])
  calc 2 ^ Config.fmt.fracBits * 1 ≤ 1 * fpUnit Config.fmt := by decide
    _ ≤ n.natAbs * fpUnit Config.fmt := Nat.mul_le_mul_right _ hn

/-- A sum of terms on the grid is on the grid, so it is exact among the subnormals. -/
theorem fpSumCond_calm {u v : FpVal}
    (hu : ∀ s m, u = .fin s m → (2 : Int) ^ 91 ∣ fpSigned s m)
    (hv : ∀ s m, v = .fin s m → (2 : Int) ^ 91 ∣ fpSigned s m) :
    (fpSumCond Config.fmt u v).Calm := by
  cases u with
  | nan => cases v <;> exact ⟨rfl, rfl⟩
  | inf s => cases v <;> exact ⟨rfl, rfl⟩
  | fin s m =>
    cases v with
    | nan => exact ⟨rfl, rfl⟩
    | inf t => exact ⟨rfl, rfl⟩
    | fin t n =>
      have hdvd := Int.natAbs_dvd_natAbs.2 (Int.dvd_add (hu s m rfl) (hv t n rfl))
      rw [show ((2 : Int) ^ 91).natAbs = 2 ^ 91 by decide] at hdvd
      exact fpRoundCond_calm _ fun hne =>
        le_trans (by decide) (Nat.le_of_dvd (Nat.pos_of_ne_zero hne) hdvd)

theorem fpAddCond_calm {a b : Fp} (ha : OnGrid (2 ^ 91) a) (hb : OnGrid (2 ^ 91) b) :
    (fpAddCond Config.fmt a b).Calm :=
  fpSumCond_calm (fun _ _ h => (ha.of_fin h).1) (fun _ _ h => (hb.of_fin h).1)

theorem fpSubCond_calm {a b : Fp} (ha : OnGrid (2 ^ 91) a) (hb : OnGrid (2 ^ 91) b) :
    (fpSubCond Config.fmt a b).Calm := by
  refine fpSumCond_calm (fun _ _ h => (ha.of_fin h).1) fun s m h => ?_
  cases hu : fpUnpack Config.fmt b with
  | nan => rw [hu] at h; cases h
  | inf t => rw [hu] at h; cases h
  | fin t n =>
    rw [hu] at h
    cases h
    rw [fpSigned_not]
    exact (Int.dvd_neg).2 (hb.of_fin hu).1

/-- Dividing zero, or at least 2^-58, by at most 2^33. -/
theorem fpDivCond_calm {a b : Fp} {t : Bool} {n : Nat}
    (ha : ∀ s m, fpUnpack Config.fmt a = .fin s m → m ≠ 0 → 2 ^ 91 ≤ m)
    (hb : fpUnpack Config.fmt b = .fin t n) (hn0 : n ≠ 0) (hn : n ≤ 2 ^ 182) :
    (fpDivCond Config.fmt a b).Calm := by
  unfold fpDivCond
  rw [hb]
  cases hu : fpUnpack Config.fmt a with
  | nan => exact ⟨rfl, rfl⟩
  | inf s => exact ⟨rfl, rfl⟩
  | fin s m =>
    simp only [fpQuotCond, if_neg hn0]
    refine fpRoundCond_calm _ fun hne => ?_
    have hm := ha s m hu fun h => hne (by rw [h, Nat.zero_mul])
    calc 2 ^ Config.fmt.fracBits * n ≤ 2 ^ 23 * 2 ^ 182 := Nat.mul_le_mul_left _ hn
      _ ≤ 2 ^ 91 * fpUnit Config.fmt := by decide
      _ ≤ m * fpUnit Config.fmt := Nat.mul_le_mul_right _ hm

theorem quanta_ge_of_onGrid {b : Fp} (h : OnGrid (2 ^ 91) b) {s : Bool} {m : Nat}
    (hu : fpUnpack Config.fmt b = .fin s m) (h0 : m ≠ 0) : 2 ^ 91 ≤ m :=
  Nat.le_of_dvd (Nat.pos_of_ne_zero h0) (dvd_fpSigned.1 (h.of_fin hu).1)

/-! ### The operands of a `NEXT` -/

/-- A converted draw: zero or at least 1.0, at most 2^31. -/
theorem fpUnpack_fpOfInt_draw {r : Int} (h1 : -2 ^ 31 ≤ r) (h2 : r < 2 ^ 31) :
    ∃ q, fpUnpack Config.fmt (fpOfInt Config.fmt r) = .fin (decide (r < 0)) q ∧
      (q ≠ 0 → 2 ^ 149 ≤ q) ∧ q ≤ 2 ^ 180 := by
  have hle := fpOfInt_mag_le h1 h2
  have hfin : fpRoundMag Config.fmt (r.natAbs * 2 ^ 149) 1 < fpInfMag Config.fmt := by
    rw [fpInfMag_fmt]; omega
  refine ⟨_, by rw [fpOfInt_fmt, fpUnpack_fpPack_fin _ _ hfin], fun hne => ?_, ?_⟩
  · exact Nat.le_of_dvd (Nat.pos_of_ne_zero hne)
      (dvd_quanta_roundMag Config.fmt (Dvd.intro_left _ rfl) hfin)
  · calc fpQuanta Config.fmt (fpRoundMag Config.fmt (r.natAbs * 2 ^ 149) 1)
        ≤ fpQuanta Config.fmt 0x4F000000 := (fpQuanta_strictMono Config.fmt).monotone hle
      _ = 2 ^ 180 := by decide

/-- An unscaled draw: zero or at least 2^-31, at most 1.0. -/
theorem fpUnpack_unscaled {r : Int} (h1 : -2 ^ 31 ≤ r) (h2 : r < 2 ^ 31) :
    ∃ q, fpUnpack Config.fmt (unscaled Config.fmt r) = .fin (decide (r < 0)) q ∧
      (q ≠ 0 → 2 ^ 118 ≤ q) ∧ q ≤ 2 ^ 149 := by
  obtain ⟨n, hn, hle, -, -, hlow, -⟩ := unscaled_spec h1 h2
  have hmono := (fpQuanta_strictMono Config.fmt).monotone
  refine ⟨_, by rw [hn, fpUnpack_fpPack_fin _ _ (by rw [fpInfMag_fmt]; omega)], fun hne => ?_, ?_⟩
  · have hn0 : n ≠ 0 := by rintro rfl; exact hne (fpQuanta_zero _)
    calc 2 ^ 118 = fpQuanta Config.fmt 0x30000000 := by decide
      _ ≤ fpQuanta Config.fmt n := hmono (hlow hn0)
  · calc fpQuanta Config.fmt n ≤ fpQuanta Config.fmt 0x3F800000 := hmono hle
      _ = 2 ^ 149 := by decide

/-- Settles O34: every operand is on a grid far above the least normal value, and every divisor is a
constant other than zero. -/
theorem noDivisionByZeroNoUnderflow : Obligations.NoDivisionByZeroNoUnderflow := by
  intro s hinv hinit
  obtain ⟨-, hslots, hout, -⟩ := hinv hinit
  obtain ⟨-, hstale, -⟩ := hslots (octave s)
  obtain ⟨-, hfresh, -⟩ := slotOk_fresh s
  obtain ⟨hr1, hr2⟩ := draw_range s
  have hrest := onGrid_fpSub hout hstale
  have hnew := onGrid_fpAdd hrest hfresh
  obtain ⟨qr, hqr, hqr1, -⟩ := fpUnpack_fpOfInt_draw hr1 hr2
  obtain ⟨qu, hqu, hqu1, -⟩ := fpUnpack_unscaled hr1 hr2
  change ∀ c ∈ nextConds s, c.Calm
  simp only [nextConds, List.forall_mem_cons, List.not_mem_nil, false_imp_iff, implies_true, and_true]
  refine ⟨fpSubCond_calm hout hstale, fpOfIntCond_calm _, fpOfIntCond_calm _, ?_, fpOfIntCond_calm _, ?_,
    fpAddCond_calm hrest hfresh, fpOfIntCond_calm _, ?_⟩
  · refine fpDivCond_calm (fun s m hu h0 => ?_) fpUnpack_dmax (by decide) (by decide)
    rw [hqr] at hu
    cases hu
    exact le_trans (by decide) (hqr1 h0)
  · refine fpDivCond_calm (fun s m hu h0 => ?_) (fpUnpack_divisor _)
      (Nat.mul_ne_zero (by omega) (by decide)) ?_
    · rw [hqu] at hu
      cases hu
      exact le_trans (by decide) (hqu1 h0)
    · exact (Nat.mul_le_mul_right _ (show (octave s).val + 2 ≤ 2 ^ 33 by omega)).trans (by decide)
  · exact fpDivCond_calm (fun _ _ hu h0 => quanta_ge_of_onGrid hnew hu h0) fpUnpack_two (by decide)
      (by decide)

/-! ### Sums of finite values in terms of what they stand for -/

theorem fpAdd_of_finite (f : Format) {a b : BitVec f.width} (ha : fpFinite f a = true)
    (hb : fpFinite f b = true) :
    ∃ z, fpAdd f a b = fpRoundInt f z (fpValue f a + fpValue f b) := by
  obtain ⟨s, m, hu⟩ := (fpFinite_iff f a).1 ha
  obtain ⟨t, n, hv⟩ := (fpFinite_iff f b).1 hb
  exact ⟨_, by rw [fpAdd_fin f hu hv, fpValue_of_fpUnpack f hu, fpValue_of_fpUnpack f hv]⟩

theorem fpSub_of_finite (f : Format) {a b : BitVec f.width} (ha : fpFinite f a = true)
    (hb : fpFinite f b = true) :
    ∃ z, fpSub f a b = fpRoundInt f z (fpValue f a - fpValue f b) := by
  obtain ⟨s, m, hu⟩ := (fpFinite_iff f a).1 ha
  obtain ⟨t, n, hv⟩ := (fpFinite_iff f b).1 hb
  exact ⟨_, by rw [fpSub_fin f hu hv, fpValue_of_fpUnpack f hu, fpValue_of_fpUnpack f hv]⟩

theorem fpAddCond_of_finite (f : Format) {a b : BitVec f.width} (ha : fpFinite f a = true)
    (hb : fpFinite f b = true) :
    fpAddCond f a b = fpRoundCond f (fpValue f a + fpValue f b).natAbs 1 := by
  obtain ⟨s, m, hu⟩ := (fpFinite_iff f a).1 ha
  obtain ⟨t, n, hv⟩ := (fpFinite_iff f b).1 hb
  simp only [fpAddCond, hu, hv, fpSumCond, fpValue_of_fpUnpack f hu, fpValue_of_fpUnpack f hv]

theorem fpSubCond_of_finite (f : Format) {a b : BitVec f.width} (ha : fpFinite f a = true)
    (hb : fpFinite f b = true) :
    fpSubCond f a b = fpRoundCond f (fpValue f a - fpValue f b).natAbs 1 := by
  obtain ⟨s, m, hu⟩ := (fpFinite_iff f a).1 ha
  obtain ⟨t, n, hv⟩ := (fpFinite_iff f b).1 hb
  simp only [fpSubCond, hu, hv, fpNegVal, fpSumCond, fpValue_of_fpUnpack f hu,
    fpValue_of_fpUnpack f hv, fpSigned_not, sub_eq_add_neg]

/-- The sign of a number put back on its magnitude. -/
theorem fpSigned_natAbs (x : Int) : fpSigned (decide (x < 0)) x.natAbs = x := by
  by_cases hx : x < 0
  · simp only [fpSigned, hx, decide_true, if_true]; omega
  · simp only [fpSigned, hx, decide_false, Bool.false_eq_true, if_false]; omega

/-- A rounding of a whole number of quanta that raises no inexact condition delivers that number. -/
theorem fpRoundInt_of_exact {z : Bool} {x : Int}
    (h : (fpRoundCond Config.fmt x.natAbs 1).inexact = false) :
    fpFinite Config.fmt (fpRoundInt Config.fmt z x) = true ∧
      fpValue Config.fmt (fpRoundInt Config.fmt z x) = x := by
  obtain ⟨hfin, hexact⟩ := (fpRoundCond_exact_iff _ _ _).1 h
  rw [Nat.mul_one] at hexact
  refine ⟨(fpFinite_fpRoundInt _ _ _ fpInfMag_fmt_pos).2 hfin, ?_⟩
  rw [fpValue_fpRoundInt _ _ _ fpInfMag_fmt_pos hfin, hexact, fpSigned_natAbs]

/-- Settles O35: the exact `⊖` takes the stale slot out of `OUT` and the exact `⊕` puts the fresh one in,
which is what happens to the sum of the slots. -/
theorem exactSumsKeepTheRunningSum : Obligations.ExactSumsKeepTheRunningSum := by
  intro s t hinv hout hnext hsub hadd
  obtain ⟨h, -⟩ | ⟨h, -⟩ | ⟨-, hinit, rfl⟩ := exec_next_cases hnext
  · cases h
  · cases h
  obtain ⟨-, hslots, -, -⟩ := hinv hinit
  obtain ⟨hstale, -⟩ := hslots (octave s)
  obtain ⟨hfresh, -⟩ := slotOk_fresh s
  rw [readHold_produceSample, if_pos rfl] at hadd
  rw [holdSum_produceSample, produceSample_OUT, newOut]
  rw [fpSubCond_of_finite _ hout hstale] at hsub
  obtain ⟨z, hz⟩ := fpSub_of_finite _ hout hstale
  obtain ⟨hrest, hrestval⟩ := fpRoundInt_of_exact (z := z) hsub
  rw [← hz] at hrest hrestval
  rw [fpAddCond_of_finite _ hrest hfresh] at hadd
  obtain ⟨w, hw⟩ := fpAdd_of_finite _ hrest hfresh
  obtain ⟨-, hnewval⟩ := fpRoundInt_of_exact (z := w) hadd
  rw [hw, hnewval, hrestval]
  ring

end Sys2Proof.Machine
end

section
/-! PROOFS. The drift bound (41_accumulator R131): each `NEXT` rounds twice, each time by at most 2^-23, as
long as the sums stay below 4. -/

namespace Sys2Proof.Machine

/-! ### The sum of the slots -/

theorem sum_slotCap_lt : ∑ k : Fin 9, slotCap k < 2 ^ 150 := by decide

/-- The slots of a set add up to less than 2. -/
theorem natAbs_sum_slots_lt {s : State} (h : ∀ k, SlotOk k (readHold s k)) (A : Finset (Fin 9)) :
    (∑ k ∈ A, fpValue Config.fmt (readHold s k)).natAbs < 2 ^ 150 := by
  have hcap (k : Fin 9) : |fpValue Config.fmt (readHold s k)| ≤ slotCap k := by
    obtain ⟨-, -, -, hk⟩ := h k
    rwa [Int.abs_eq_natAbs]
  have hlt : |∑ k ∈ A, fpValue Config.fmt (readHold s k)| < 2 ^ 150 := by
    calc |∑ k ∈ A, fpValue Config.fmt (readHold s k)|
        ≤ ∑ k ∈ A, |fpValue Config.fmt (readHold s k)| := Finset.abs_sum_le_sum_abs _ _
      _ ≤ ∑ k ∈ A, slotCap k := Finset.sum_le_sum fun k _ => hcap k
      _ ≤ ∑ k : Fin 9, slotCap k := Finset.sum_le_univ_sum_of_nonneg fun k =>
          (abs_nonneg _).trans (hcap k)
      _ < 2 ^ 150 := sum_slotCap_lt
  rw [Int.abs_eq_natAbs] at hlt
  exact_mod_cast hlt

/-! ### The bounds of one `NEXT`, on numbers of quanta -/

/-- The drift and the slots left in `OUT` stay below 2 each. -/
theorem rest_lt_of_drift {out sum stale : Int} (hdrift : (out - sum).natAbs ≤ (2 ^ 23 - 1) * 2 ^ 127)
    (hother : (sum - stale).natAbs < 2 ^ 150) : (out - stale).natAbs < 2 ^ 151 := by
  omega

/-- The drift, one rounding and the slots after the `NEXT` stay below 4 together. -/
theorem new_lt_of_drift {out sum stale fresh rest : Int}
    (hdrift : (out - sum).natAbs ≤ (2 ^ 23 - 1) * 2 ^ 127)
    (hrest : (rest - (out - stale)).natAbs ≤ 2 ^ 126)
    (hsum : (sum - stale + fresh).natAbs < 2 ^ 150) : (rest + fresh).natAbs < 2 ^ 151 := by
  omega

/-- Two roundings of at most 2^-23 each add at most 2^-22 to the drift. -/
theorem drift_add_two_roundings {out sum stale fresh rest new : Int} {d : Nat}
    (hdrift : (out - sum).natAbs ≤ d)
    (hrest : (rest - (out - stale)).natAbs ≤ 2 ^ 126)
    (hnew : (new - (rest + fresh)).natAbs ≤ 2 ^ 126) :
    (new - (sum - stale + fresh)).natAbs ≤ d + 2 ^ 127 := by
  omega

/-- `OUT` is the sum of the slots and the drift. -/
theorem out_lt_of_drift {out sum : Int} (hdrift : (out - sum).natAbs ≤ 2 ^ 23 * 2 ^ 127)
    (hsum : sum.natAbs < 2 ^ 150) : out.natAbs < 2 ^ 151 := by
  omega

/-! ### One `NEXT` -/

/-- The slot value that a `NEXT` takes out of `OUT`. -/
abbrev staleSlot (s : State) : Fp := readHold s (octave s)

/-- The slot value that a `NEXT` puts into `OUT`. -/
abbrev freshSlot (s : State) : Fp := newHold Config.fmt (octave s) (draw s).2

/-- `OUT` between the two sums of a `NEXT`. -/
abbrev restOut (s : State) : Fp := fpSub Config.fmt s.OUT (staleSlot s)

/-- What the drift bound says of the two sums of a `NEXT`: both stay below 4, so both are finite and off by
at most 2^-23. -/
structure SumsOk (s : State) : Prop where
  rest_lt : (fpValue Config.fmt s.OUT - fpValue Config.fmt (staleSlot s)).natAbs < 2 ^ 151
  rest_finite : fpFinite Config.fmt (restOut s) = true
  rest_error : (fpValue Config.fmt (restOut s) -
    (fpValue Config.fmt s.OUT - fpValue Config.fmt (staleSlot s))).natAbs ≤ 2 ^ 126
  new_lt : (fpValue Config.fmt (restOut s) + fpValue Config.fmt (freshSlot s)).natAbs < 2 ^ 151
  new_finite : fpFinite Config.fmt (produceSample s).OUT = true
  new_error : (fpValue Config.fmt (produceSample s).OUT -
    (fpValue Config.fmt (restOut s) + fpValue Config.fmt (freshSlot s))).natAbs ≤ 2 ^ 126

theorem natAbs_holdSum_lt {s : State} (hinv : s.Inv) (hinit : s.init = true) :
    (holdSum s).natAbs < 2 ^ 150 := by
  obtain ⟨-, hslots, -⟩ := hinv hinit
  exact natAbs_sum_slots_lt hslots Finset.univ

/-- The sum of the slots that a `NEXT` leaves alone. -/
theorem natAbs_holdSum_sub_lt {s : State} (hinv : s.Inv) (hinit : s.init = true) (k : Fin 9) :
    (holdSum s - fpValue Config.fmt (readHold s k)).natAbs < 2 ^ 150 := by
  obtain ⟨-, hslots, -⟩ := hinv hinit
  have h := natAbs_sum_slots_lt hslots (Finset.univ.erase k)
  rwa [Finset.sum_erase_eq_sub (Finset.mem_univ _)] at h

theorem sumsOk_of_driftOk {s : State} {n : Nat} (hinv : s.Inv) (hinit : s.init = true)
    (hdrift : DriftOk n s) (hn : n < 2 ^ 23) : SumsOk s := by
  obtain ⟨hout, -, hd⟩ := hdrift
  obtain ⟨-, hslots, -, -⟩ := hinv hinit
  obtain ⟨hstale, -⟩ := hslots (octave s)
  obtain ⟨hfresh, -⟩ := slotOk_fresh s
  have hd := hd.trans (Nat.mul_le_mul_right (2 ^ 127) (Nat.le_sub_one_of_lt hn))
  have hsum := natAbs_holdSum_lt (inv_produceSample hinv hinit) (init_produceSample hinit)
  rw [holdSum_produceSample] at hsum
  obtain ⟨z, hz⟩ := fpSub_of_finite Config.fmt hout hstale
  have hx := rest_lt_of_drift hd (natAbs_holdSum_sub_lt hinv hinit (octave s))
  obtain ⟨hrest, herr, -⟩ := fpRoundInt_of_lt (z := z) hx
  rw [← hz] at hrest herr
  obtain ⟨w, hw⟩ := fpAdd_of_finite Config.fmt hrest hfresh
  have hy := new_lt_of_drift hd herr hsum
  obtain ⟨hnew, herr', -⟩ := fpRoundInt_of_lt (z := w) hy
  rw [← hw] at hnew herr'
  exact ⟨hx, hrest, herr, hy, by rw [produceSample_OUT, newOut]; exact hnew,
    by rw [produceSample_OUT, newOut]; exact herr'⟩

theorem driftOk_produceSample {s : State} {n : Nat} (hinv : s.Inv) (hinit : s.init = true)
    (hdrift : DriftOk n s) (hn : n < 2 ^ 23) : DriftOk (n + 1) (produceSample s) := by
  obtain ⟨-, -, hrest, -, hfin, hnew⟩ := sumsOk_of_driftOk hinv hinit hdrift hn
  obtain ⟨-, -, hd⟩ := hdrift
  have hd' := drift_add_two_roundings hd hrest hnew
  rw [← holdSum_produceSample, ← Nat.succ_mul] at hd'
  have hle := hd'.trans (Nat.mul_le_mul_right (2 ^ 127) (Nat.succ_le_of_lt hn))
  exact ⟨hfin, out_lt_of_drift hle
    (natAbs_holdSum_lt (inv_produceSample hinv hinit) (init_produceSample hinit)), hd'⟩

theorem driftOk_initRegs (s : State) : DriftOk 0 (initRegs s) := by
  unfold DriftOk
  rw [holdSum_initRegs, initRegs_OUT]
  decide

/-- Settles O51: `OUT` and every slot are `+0.0`. -/
theorem driftBoundHoldsAtReset : Obligations.DriftBoundHoldsAtReset := by
  refine ⟨driftOk_initRegs State.reset, fun s t h => ?_⟩
  rw [exec_init] at h
  cases h
  exact driftOk_initRegs s

/-- Counting a step touches neither the invariant nor the drift bound. -/
theorem invDriftOk_tick {u : State} {n : Nat} (h : u.Inv ∧ u.init = true ∧ DriftOk n u) :
    (tick u).Inv ∧ (tick u).init = true ∧ DriftOk n (tick u) := by
  obtain ⟨hinv, hinit, hdrift⟩ := h
  exact ⟨inv_tick hinv, hinit, driftOk_tick hdrift⟩

/-- Settles O50: a `NEXT` adds one rounding step to the bound, a reset starts it anew, and an idle step
keeps it. -/
theorem everyStepKeepsTheDriftBound : Obligations.EveryStepKeepsTheDriftBound := by
  intro s t n hinv hinit hdrift hn
  have hnext : (produceSample s).Inv ∧ (produceSample s).init = true ∧ DriftOk (n + 1) (produceSample s) :=
    ⟨inv_produceSample hinv hinit, init_produceSample hinit, driftOk_produceSample hinv hinit hdrift hn⟩
  refine ⟨fun h => ?_, fun h => ?_⟩
  · rw [exec_next_of_init hinit] at h
    cases h
    exact hnext
  · rcases step_cases h with rfl | rfl | ⟨-, rfl⟩
    · exact invDriftOk_tick ⟨inv_initRegs s, initRegs_init s,
        driftOk_mono (Nat.zero_le _) (driftOk_initRegs s)⟩
    · exact invDriftOk_tick ⟨hinv, hinit, driftOk_mono (Nat.le_succ n) hdrift⟩
    · exact invDriftOk_tick hnext

/-! ### The first 2^23 `NEXT`s -/

/-- `n` samples after `INIT`. -/
theorem iterate_invariants (s : State) {n : Nat} (hn : n ≤ 2 ^ 23) :
    (produceSample^[n] (initRegs s)).Inv ∧ (produceSample^[n] (initRegs s)).init = true ∧
      DriftOk n (produceSample^[n] (initRegs s)) := by
  induction n with
  | zero => exact ⟨inv_initRegs s, rfl, driftOk_initRegs s⟩
  | succ n ih =>
    obtain ⟨hinv, hinit, hdrift⟩ := ih (by omega)
    rw [Function.iterate_succ_apply']
    exact ⟨inv_produceSample hinv hinit, init_produceSample hinit,
      driftOk_produceSample hinv hinit hdrift (by omega)⟩

theorem overflowBound_ge (d : Nat) : 2 ^ 252 * d ≤ fpOverflowBound Config.fmt * d :=
  Nat.mul_le_mul_right _ (by decide)

/-- A quotient by at least 1.0. -/
theorem fpDivCond_bounded {a b : Fp} {s t : Bool} {m n : Nat}
    (ha : fpUnpack Config.fmt a = .fin s m) (hb : fpUnpack Config.fmt b = .fin t n)
    (hm : m < 2 ^ 252) (hn : 2 ^ 149 ≤ n) : (fpDivCond Config.fmt a b).Bounded := by
  have hn0 : n ≠ 0 := by rintro rfl; exact absurd hn (by decide)
  simp only [fpDivCond, ha, hb, fpQuotCond, if_neg hn0]
  refine fpRoundCond_bounded _ (by decide) (Nat.pos_of_ne_zero hn0) ?_
  calc m * fpUnit Config.fmt < 2 ^ 252 * 2 ^ 149 := (Nat.mul_lt_mul_right (by decide)).2 hm
    _ ≤ 2 ^ 252 * n := Nat.mul_le_mul_left _ hn
    _ ≤ _ := overflowBound_ge n

theorem fpOfIntCond_bounded {n : Int} (h : n.natAbs ≤ 2 ^ 31) : (fpOfIntCond Config.fmt n).Bounded := by
  refine fpRoundCond_bounded _ (by decide) Nat.one_pos ?_
  calc n.natAbs * fpUnit Config.fmt ≤ 2 ^ 31 * 2 ^ 149 := Nat.mul_le_mul_right _ h
    _ < 2 ^ 252 * 1 := by decide
    _ ≤ _ := overflowBound_ge 1

theorem fpRoundCond_sum_bounded {x : Int} (h : x.natAbs < 2 ^ 151) :
    (fpRoundCond Config.fmt x.natAbs 1).Bounded := by
  refine fpRoundCond_bounded _ (by decide) Nat.one_pos (h.trans ?_)
  calc 2 ^ 151 < 2 ^ 252 * 1 := by decide
    _ ≤ _ := overflowBound_ge 1

/-- As long as the drift is below 2 no operation of a `NEXT` overflows or is invalid. -/
theorem nextConds_bounded {s : State} {n : Nat} (hinv : s.Inv) (hinit : s.init = true)
    (hdrift : DriftOk n s) (hn : n < 2 ^ 23) : ∀ c ∈ nextConds s, c.Bounded := by
  obtain ⟨hx, hrest, -, hy, -, -⟩ := sumsOk_of_driftOk hinv hinit hdrift hn
  obtain ⟨hnew, hnewlt, -⟩ := driftOk_produceSample hinv hinit hdrift hn
  obtain ⟨hout, -⟩ := hdrift
  obtain ⟨-, hslots, -, -⟩ := hinv hinit
  obtain ⟨hstale, -⟩ := hslots (octave s)
  obtain ⟨hfresh, -⟩ := slotOk_fresh s
  obtain ⟨hr1, hr2⟩ := draw_range s
  obtain ⟨qr, hqr, -, hqr2⟩ := fpUnpack_fpOfInt_draw hr1 hr2
  obtain ⟨qu, hqu, -, hqu2⟩ := fpUnpack_unscaled hr1 hr2
  rw [produceSample_OUT, newOut] at hnew hnewlt
  obtain ⟨t, q, hq, hqval⟩ := fpUnpack_of_fpFinite hnew
  rw [hqval, natAbs_fpSigned] at hnewlt
  simp only [nextConds, List.forall_mem_cons, List.not_mem_nil, false_imp_iff, implies_true, and_true]
  refine ⟨?_, fpOfIntCond_bounded (by omega), fpOfIntCond_bounded (by decide), ?_,
    fpOfIntCond_bounded (by omega), ?_, ?_, fpOfIntCond_bounded (by decide), ?_⟩
  · rw [fpSubCond_of_finite _ hout hstale]
    exact fpRoundCond_sum_bounded hx
  · exact fpDivCond_bounded hqr fpUnpack_dmax (hqr2.trans_lt (by decide)) (by decide)
  · exact fpDivCond_bounded hqu (fpUnpack_divisor _) (hqu2.trans_lt (by decide))
      (Nat.le_mul_of_pos_left _ (by omega))
  · rw [fpAddCond_of_finite _ hrest hfresh]
    exact fpRoundCond_sum_bounded hy
  · exact fpDivCond_bounded hq fpUnpack_two (hnewlt.trans (by decide)) (by decide)

/-- Commands after `INIT` from the registers it leaves: `n` samples. -/
theorem execAll_init_nexts (s : State) (n : Nat) :
    execAll (.init :: List.replicate n .next) s = .next (produceSample^[n] (initRegs s)) := by
  rw [execAll, exec_init, onNext_next, execAll_replicate_next n _ (initRegs_init s)]

/-- Settles O36: the invariant and the drift bound hold along the run, and they bound the operands of the
next `NEXT`. -/
theorem driftWithinTheFirstNexts : Obligations.DriftWithinTheFirstNexts := by
  intro s n hn
  obtain ⟨hinv, hinit, hdrift⟩ := iterate_invariants s hn
  obtain ⟨-, hslots, -, -⟩ := hinv hinit
  obtain ⟨-, hhalf⟩ := sampleIsExactlyHalf _ hinv hinit
  refine ⟨_, execAll_init_nexts s n, hdrift, fun k => ?_, ?_, fun hlt =>
    nextConds_bounded hinv hinit hdrift hlt⟩
  · obtain ⟨hfin, -⟩ := hslots k
    exact hfin
  · obtain ⟨hout, -⟩ := hdrift
    obtain ⟨hfin, -⟩ := hhalf hout
    exact hfin

end Sys2Proof.Machine
end

section
/-! PROOFS. Rounding to nearest even and overflow, for every operation in every format with at least two
exponent bits and one fraction bit (00_scope R8; IEEE 754, notes/assumptions/6.md): each result is a packed
rounding of a sign and a ratio of quanta, and two lemmas say what a packed rounding is. -/

namespace Sys2Proof.Machine

/-! ### Signs -/

theorem fpSigned_mul (s : Bool) (q n : Nat) : fpSigned s (q * n) = fpSigned s q * n := by
  cases s <;> simp [fpSigned]

/-- The distance of two numbers of one sign. -/
theorem abs_fpSigned_sub_same (s : Bool) (q d n : Nat) :
    |fpSigned s q * d - fpSigned s n| = |(q : Int) * d - n| := by
  cases s
  · simp [fpSigned]
  · rw [← abs_neg]; simp only [fpSigned, if_true]; congr 1; ring

/-- The distance of two numbers of opposite signs. -/
theorem abs_fpSigned_sub_not (s : Bool) (q d n : Nat) :
    |fpSigned (!s) q * d - fpSigned s n| = (q : Int) * d + n := by
  have hpos : (0 : Int) ≤ (q : Int) * d + n := by positivity
  cases s
  · rw [← abs_neg, ← abs_of_nonneg hpos]; simp only [fpSigned]; congr 1; simp; ring
  · rw [← abs_of_nonneg hpos]; simp only [fpSigned]; congr 1; simp

theorem fpSigned_eq_zero_iff (s : Bool) (q : Nat) : fpSigned s q = 0 ↔ q = 0 := by
  cases s <;> simp [fpSigned]

/-- The sign of a number other than zero. -/
theorem decide_fpSigned_neg (s : Bool) {q : Nat} (h : q ≠ 0) : decide (fpSigned s q < 0) = s := by
  have hpos : 0 < q := Nat.pos_of_ne_zero h
  cases s <;> simp [fpSigned, hpos]

/-! ### A packed rounding -/

theorem fpPack_even_of_even (f : Format) (hf : 1 ≤ f.fracBits) (s : Bool) {mag : Nat}
    (hmag : mag < fpSignWeight f) (h : mag % 2 = 0) : (fpPack f s mag).toNat % 2 = 0 := by
  have hw : 2 ∣ fpSignWeight f := dvd_pow_self 2 (by omega)
  rw [toNat_fpPack f s hmag]
  split <;> omega

/-- A packed rounding that is finite is the correctly rounded value: among the values of its sign by
`roundMag_nearest`, and a value of the other sign is no nearer than zero. -/
theorem isNearestEven_fpPack (f : Format) (hf : 1 ≤ f.fracBits) {s : Bool} {num den : Nat} (hd : 0 < den)
    (hfin : fpFinite f (fpPack f s (fpRoundMag f num den)) = true) :
    IsNearestEven f (fpPack f s (fpRoundMag f num den)) (fpSigned s num) den := by
  have hlt := (fpFinite_fpPack_round f s num den).1 hfin
  have heven := fpPack_even_of_even f hf s (hlt.trans (infMag_lt_signWeight f))
  intro c hc
  obtain ⟨t, q, hu⟩ := (fpFinite_iff f c).1 hc
  obtain ⟨m, -, rfl, -⟩ := fpPack_of_fpUnpack f hu
  rw [fpValue_fpPack f s hlt, fpValue_of_fpUnpack f hu, abs_fpSigned_sub_same]
  rcases Bool.eq_or_eq_not t s with rfl | rfl
  · obtain ⟨hle, htie⟩ := roundMag_nearest f hf hd hlt m
    rw [abs_fpSigned_sub_same]
    exact ⟨hle, fun he hne => heven (htie he fun hq => hne (by rw [hq]))⟩
  · obtain ⟨hle, htie⟩ := roundMag_nearest f hf hd hlt 0
    rw [abs_fpSigned_sub_not]
    have hm : (0 : Int) ≤ (fpQuanta f m : Int) * den := by positivity
    simp only [fpQuanta_zero, Nat.cast_zero, zero_mul, zero_sub, abs_neg, Nat.abs_cast] at hle htie
    refine ⟨by omega, fun he hne => heven (htie (by omega) fun hq => hne ?_)⟩
    have hm0 : (fpQuanta f m : Int) * den = 0 := by omega
    have hm0 : fpQuanta f m = 0 := by
      rcases mul_eq_zero.1 hm0 with h | h <;> omega
    rw [← hq, hm0, (fpSigned_eq_zero_iff _ 0).2 rfl, (fpSigned_eq_zero_iff _ 0).2 rfl]

/-- A packed rounding is finite below the overflow bound and infinity from it on. The sign of an exact
zero does not matter here. -/
theorem overflowsFromBound_fpPack (f : Format) (hf : 2 ≤ f.expBits) {s neg : Bool} {num den : Nat}
    (hd : 0 < den) (hs : num ≠ 0 → s = neg) :
    OverflowsFromBound f (fpPack f s (fpRoundMag f num den)) neg num den := by
  have hiff := roundMag_lt_infMag_iff f hf (num := num) hd
  refine ⟨fun hlt => (fpFinite_fpPack_round f s num den).2 (hiff.2 hlt), fun hge => ?_⟩
  have hinf : fpRoundMag f num den = fpInfMag f :=
    le_antisymm (roundMag_le f num den) (not_lt.1 fun h => absurd (hiff.1 h) (not_lt.2 hge))
  have hbound : 0 < fpOverflowBound f := by
    have h4 : 2 ^ 2 ≤ 2 ^ (f.fracBits + 2) := Nat.pow_le_pow_right (by decide) (by omega)
    exact Nat.mul_pos (by omega) (Nat.two_pow_pos _)
  have hnum : 0 < num := (Nat.mul_pos hbound hd).trans_le hge
  rw [hinf, hs hnum.ne']

/-! ### The operations as packed roundings -/

/-- A rounded whole number of quanta is a packed rounding; an exact zero may have either sign. -/
theorem fpRoundInt_eq_fpPack (f : Format) (z : Bool) (x : Int) :
    ∃ s, fpRoundInt f z x = fpPack f s (fpRoundMag f x.natAbs 1) ∧ fpSigned s x.natAbs = x ∧
      (x.natAbs ≠ 0 → s = decide (x < 0)) := by
  by_cases hx : x = 0
  · subst hx
    exact ⟨z, by rw [Int.natAbs_zero, roundMag_zero]; rfl, (fpSigned_eq_zero_iff z 0).2 rfl,
      fun h => absurd rfl h⟩
  · exact ⟨_, if_neg hx, fpSigned_natAbs x, fun _ => rfl⟩

/-- The quotient of finite values with a divisor other than zero is a packed rounding. -/
theorem fpDiv_of_finite (f : Format) {a b : BitVec f.width} (ha : fpFinite f a = true)
    (hb : fpFinite f b = true) (hb0 : fpValue f b ≠ 0) :
    ∃ s, fpDiv f a b =
        fpPack f s (fpRoundMag f ((fpValue f a).natAbs * fpUnit f) (fpValue f b).natAbs) ∧
      fpSigned s ((fpValue f a).natAbs * fpUnit f) =
        fpValue f a * fpUnit f * (fpValue f b).sign ∧
      ((fpValue f a).natAbs * fpUnit f ≠ 0 →
        s = (decide (fpValue f a < 0) ^^ decide (fpValue f b < 0))) := by
  obtain ⟨s, m, hu⟩ := (fpFinite_iff f a).1 ha
  obtain ⟨t, n, hv⟩ := (fpFinite_iff f b).1 hb
  rw [fpValue_of_fpUnpack f hv, Ne, fpSigned_eq_zero_iff] at hb0
  rw [fpValue_of_fpUnpack f hu, fpValue_of_fpUnpack f hv, natAbs_fpSigned, natAbs_fpSigned,
    decide_fpSigned_neg t hb0]
  refine ⟨s ^^ t, fpDiv_fin f hu hv hb0, ?_, fun h => ?_⟩
  · have hn : (n : Int).sign = 1 := Int.sign_eq_one_of_pos (by omega)
    rw [fpSigned_mul]
    cases s <;> cases t <;> simp [fpSigned, hn]
  · rw [decide_fpSigned_neg s (left_ne_zero_of_mul h)]

/-! ### The two formats of the spec -/

theorem expBits_ge_two {f : Format} (h : f = Format.binary32 ∨ f = Format.binary64) : 2 ≤ f.expBits := by
  rcases h with rfl | rfl <;> decide

theorem fracBits_ge_one {f : Format} (h : f = Format.binary32 ∨ f = Format.binary64) :
    1 ≤ f.fracBits := by
  rcases h with rfl | rfl <;> decide

/-- A rounded whole number of quanta that is finite is correctly rounded. -/
theorem isNearestEven_of_eq_roundInt {f : Format} (hf : 1 ≤ f.fracBits) {v : BitVec f.width} {x : Int}
    (hv : ∃ z, v = fpRoundInt f z x) (hfin : fpFinite f v = true) : IsNearestEven f v x 1 := by
  obtain ⟨z, hz⟩ := hv
  obtain ⟨s, hs, hsx, -⟩ := fpRoundInt_eq_fpPack f z x
  rw [hz, hs] at hfin ⊢
  have h := isNearestEven_fpPack f hf Nat.one_pos hfin
  rwa [hsx] at h

theorem overflowsFromBound_of_eq_roundInt {f : Format} (hf : 2 ≤ f.expBits) {v : BitVec f.width} {x : Int}
    (hv : ∃ z, v = fpRoundInt f z x) : OverflowsFromBound f v (decide (x < 0)) x.natAbs 1 := by
  obtain ⟨z, rfl⟩ := hv
  obtain ⟨s, hs, -, hneg⟩ := fpRoundInt_eq_fpPack f z x
  rw [hs]
  exact overflowsFromBound_fpPack f hf Nat.one_pos hneg

/-- Settles O48: `f` of a rational is a packed rounding. -/
theorem rationalsRoundToNearestEven : Obligations.RationalsRoundToNearestEven :=
  fun f hf _ _ _ hd hfin => isNearestEven_fpPack f (fracBits_ge_one hf) hd hfin

/-- Settles O24: every operation is a packed rounding of the exact result. -/
theorem operationsRoundToNearestEven : Obligations.OperationsRoundToNearestEven := by
  intro f hf
  have hfrac := fracBits_ge_one hf
  refine ⟨fun n hfin => ?_, fun a b ha hb => ⟨?_, ?_, fun hb0 hfin => ?_⟩⟩
  · have h := rationalsRoundToNearestEven f hf _ _ 1 Nat.one_pos hfin
    rwa [fpSigned_mul, fpSigned_natAbs] at h
  · exact isNearestEven_of_eq_roundInt hfrac (fpAdd_of_finite f ha hb)
  · exact isNearestEven_of_eq_roundInt hfrac (fpSub_of_finite f ha hb)
  · obtain ⟨s, hs, hval, -⟩ := fpDiv_of_finite f ha hb hb0
    rw [hs] at hfin ⊢
    rw [← hval]
    exact isNearestEven_fpPack f hfrac (Int.natAbs_pos.2 hb0) hfin

/-- Settles O47: every operation is a packed rounding, which is finite exactly below the midpoint. -/
theorem resultsOverflowFromTheMidpoint : Obligations.ResultsOverflowFromTheMidpoint := by
  intro f hf
  have hexp := expBits_ge_two hf
  refine ⟨fun n => ?_, fun neg num den hd => ?_, fun a b ha hb => ⟨?_, ?_, fun hb0 => ?_⟩⟩
  · exact overflowsFromBound_fpPack f hexp Nat.one_pos fun _ => rfl
  · exact overflowsFromBound_fpPack f hexp hd fun _ => rfl
  · exact overflowsFromBound_of_eq_roundInt hexp (fpAdd_of_finite f ha hb)
  · exact overflowsFromBound_of_eq_roundInt hexp (fpSub_of_finite f ha hb)
  · obtain ⟨s, hs, -, hneg⟩ := fpDiv_of_finite f ha hb hb0
    rw [hs]
    exact overflowsFromBound_fpPack f hexp (Int.natAbs_pos.2 hb0) hneg

theorem fpOverflowBound_fmt : fpOverflowBound Config.fmt = (2 ^ 25 - 1) * 2 ^ 252 := rfl

/-- Settles O25: the case of the sum in binary32, whose midpoint is (2^25 - 1) 2^252 quanta. -/
theorem sumOverflowsToInfinity : Obligations.SumOverflowsToInfinity := by
  intro a b ha hb x
  have hexp : 2 ≤ Config.fmt.expBits := by decide
  obtain ⟨hfin, hinf⟩ := overflowsFromBound_of_eq_roundInt hexp (fpAdd_of_finite Config.fmt ha hb)
  rw [fpOverflowBound_fmt, Nat.mul_one] at hfin hinf
  have hbound : ((2 : Int) ^ 25 - 1) * 2 ^ 252 = (((2 ^ 25 - 1) * 2 ^ 252 : Nat) : Int) := by norm_num
  rw [Int.abs_eq_natAbs, hbound, Nat.cast_le, Nat.cast_lt]
  exact ⟨hinf, hfin⟩

end Sys2Proof.Machine
end

section
/-! PROOFS. The special values (93 G4, G5; IEEE 754, notes/assumptions/6.md): what a sum and a quotient give
on NaNs, infinities and zeros. -/

namespace Sys2Proof.Machine

/-! ### Invalid operations -/

/-- A sum with a NaN operand gives the NaN of an invalid sum. -/
theorem fpSumVal_of_nan (f : Format) (nan : BitVec f.width) {u v : FpVal} (h : u = .nan ∨ v = .nan) :
    fpSumVal f nan u v = nan := by
  rcases h with rfl | rfl
  · rfl
  · cases u <;> rfl

theorem fpQuotVal_of_nan (f : Format) (nan : BitVec f.width) {u v : FpVal} (h : u = .nan ∨ v = .nan) :
    fpQuotVal f nan u v = nan := by
  rcases h with rfl | rfl
  · rfl
  · cases u <;> rfl

/-- Infinities of opposite signs have no sum. -/
theorem fpSumVal_inf_not (f : Format) (nan : BitVec f.width) (s : Bool) :
    fpSumVal f nan (.inf s) (.inf (!s)) = nan :=
  if_neg (by simp)

theorem fpSumVal_inf_same (f : Format) (nan : BitVec f.width) (s : Bool) :
    fpSumVal f nan (.inf s) (.inf s) = fpPack f s (fpInfMag f) :=
  if_pos rfl

/-- Settles O26: each of these operations gives the free NaN, which is a NaN whatever the free value. -/
theorem invalidOperationsGiveNan : Obligations.InvalidOperationsGiveNan := by
  intro f hf a b
  have hnan (op : FpOp) := fpUnpack_fpNan op f a b (fracBits_ge_one hf)
  refine ⟨fun h => ⟨?_, ?_, ?_⟩, fun s ha hb => ?_, fun s ha hb => ?_, fun s t ha hb => ?_,
    fun s t ha hb => ?_⟩
  · rw [fpAdd, fpSumVal_of_nan f _ h, hnan]
  · have h' : fpUnpack f a = .nan ∨ fpNegVal (fpUnpack f b) = .nan :=
      h.imp_right fun hb => by rw [hb, fpNegVal]
    rw [fpSub, fpSumVal_of_nan f _ h', hnan]
  · rw [fpDiv, fpQuotVal_of_nan f _ h, hnan]
  · rw [fpSub, ha, hb, fpNegVal, fpSumVal_inf_not, hnan]
  · rw [fpAdd, ha, hb, fpSumVal_inf_not, hnan]
  · rw [fpDiv, ha, hb, fpQuotVal, hnan]
  · rw [fpDiv, ha, hb, fpQuotVal, if_pos rfl, if_pos rfl, hnan]

/-! ### Operations that give an infinity or a zero -/

/-- Settles O49: case by case the clause of the sum or of the quotient; a quotient of zero is a rounding
of zero. -/
theorem infinityAndZeroArithmetic : Obligations.InfinityAndZeroArithmetic := by
  intro f _ a b s t
  refine ⟨fun n ha hb => ⟨?_, ?_, ?_⟩, fun m ha hb => ⟨?_, ?_, ?_⟩, fun ha hb => ?_, fun ha hb => ?_,
    fun m hm ha hb => ?_, fun n hn ha hb => ?_⟩
  · rw [fpAdd, ha, hb, fpSumVal]
  · rw [fpSub, ha, hb, fpNegVal, fpSumVal]
  · rw [fpDiv, ha, hb, fpQuotVal]
  · rw [fpAdd, ha, hb, fpSumVal]
  · rw [fpSub, ha, hb, fpNegVal, fpSumVal]
  · rw [fpDiv, ha, hb, fpQuotVal]
  · rw [fpAdd, ha, hb, fpSumVal_inf_same]
  · rw [fpSub, ha, hb, fpNegVal, Bool.not_not, fpSumVal_inf_same]
  · rw [fpDiv, ha, hb, fpQuotVal, if_pos rfl, if_neg hm]
  · rw [fpDiv_fin f ha hb hn, Nat.zero_mul, roundMag_zero]

/-! ### Negative zero -/

theorem negZero_eq : (0x80000000#32 : Fp) = fpPack Config.fmt true 0 := by decide

theorem posZero_eq : (0x00000000#32 : Fp) = fpPack Config.fmt false 0 := by decide

/-- A rounded whole number of quanta is negative zero only as an exact zero of that sign. -/
theorem fpRoundInt_eq_negZero_iff (z : Bool) (x : Int) :
    fpRoundInt Config.fmt z x = fpPack Config.fmt true 0 ↔ x = 0 ∧ z = true := by
  by_cases hx : x = 0
  · rw [fpRoundInt, if_pos hx]
    refine ⟨fun e => ⟨hx, (fpPack_injective (by decide) (by decide) e).1⟩, ?_⟩
    rintro ⟨-, rfl⟩
    rfl
  · exact iff_of_false (fpRoundInt_ne_zero hx true) fun ⟨h, _⟩ => hx h

/-- A sum is negative zero only of two negative zeros: neither an infinity nor a NaN is one, and an exact
zero sum is signed only when both terms are. -/
theorem fpSumVal_eq_negZero_iff (op : FpOp) (a b : Fp) (u v : FpVal) :
    fpSumVal Config.fmt (fpNan op Config.fmt a b) u v = fpPack Config.fmt true 0 ↔
      u = .fin true 0 ∧ v = .fin true 0 := by
  have hnan := (onGrid_nan op a b).1
  have hinf (s : Bool) := (onGrid_inf s).1
  cases u with
  | nan => exact iff_of_false hnan (by simp)
  | inf s =>
    refine iff_of_false ?_ (by simp)
    cases v with
    | nan => exact hnan
    | inf t =>
      rw [fpSumVal]
      split
      · exact hinf s
      · exact hnan
    | fin t n => exact hinf s
  | fin s m =>
    cases v with
    | nan => exact iff_of_false hnan (by simp)
    | inf t => exact iff_of_false (hinf t) (by simp)
    | fin t n =>
      rw [fpSumVal, fpRoundInt_eq_negZero_iff, Bool.and_eq_true]
      simp only [FpVal.fin.injEq]
      constructor
      · rintro ⟨hx, rfl, rfl⟩
        simp only [fpSigned, if_true] at hx
        exact ⟨⟨rfl, by omega⟩, rfl, by omega⟩
      · rintro ⟨⟨rfl, rfl⟩, rfl, rfl⟩
        exact ⟨rfl, rfl, rfl⟩

theorem fpNegVal_eq_fin_iff (v : FpVal) (s : Bool) (q : Nat) :
    fpNegVal v = .fin s q ↔ v = .fin (!s) q := by
  cases v with
  | nan => simp [fpNegVal]
  | inf t => simp [fpNegVal]
  | fin t n => cases s <;> cases t <;> simp [fpNegVal]

/-- Settles O27: negative zero as a sum, read back through the patterns of the two zeros. -/
theorem negativeZeroSums : Obligations.NegativeZeroSums := by
  intro a b
  rw [negZero_eq, posZero_eq]
  constructor
  · rw [fpAdd, fpSumVal_eq_negZero_iff, fpUnpack_eq_zero_iff, fpUnpack_eq_zero_iff]
  · rw [fpSub, fpSumVal_eq_negZero_iff, fpNegVal_eq_fin_iff, Bool.not_true, fpUnpack_eq_zero_iff,
      fpUnpack_eq_zero_iff]

end Sys2Proof.Machine
end

section
/-! PROOFS. The unscaled draw and the divisors of the rescaler in binary32 (41_accumulator R125, R126). -/

namespace Sys2Proof.Machine

/-! ### The unscaled draw -/

/-- A whole number of at most 24 bits, or 2^24 itself, is held exactly. -/
theorem quanta_roundMag_of_le {n : Nat} (h : n ≤ 2 ^ 24) :
    fpQuanta Config.fmt (fpRoundMag Config.fmt (n * 2 ^ 149) 1) = n * 2 ^ 149 := by
  rcases Nat.lt_or_eq_of_le h with hlt | rfl
  · have hnum : n * 2 ^ 149 < 2 ^ (Config.fmt.fracBits + 1 + 149) := by
      calc n * 2 ^ 149 < 2 ^ 24 * 2 ^ 149 := (Nat.mul_lt_mul_right (by decide)).2 hlt
        _ = 2 ^ (Config.fmt.fracBits + 1 + 149) := by decide
    have hfin : fpRoundMag Config.fmt (n * 2 ^ 149) 1 < fpInfMag Config.fmt := by
      rw [roundMag_lt_infMag_iff _ (by decide) Nat.one_pos]
      exact hnum.trans (by decide)
    obtain ⟨q, hq⟩ := dvd_quanta_roundMag Config.fmt (Dvd.intro_left n rfl) hfin
    have herr := roundMag_error_of_lt Config.fmt hnum hfin
    rw [hq] at herr ⊢
    omega
  · decide

/-- From 2147483584 on a draw converts to 2^31 in magnitude. -/
theorem mag_of_large_draw {r : Int} (h1 : -2 ^ 31 ≤ r) (h2 : r < 2 ^ 31)
    (h : 2147483584 ≤ r.natAbs) : fpRoundMag Config.fmt (r.natAbs * 2 ^ 149) 1 = 0x4F000000 := by
  refine le_antisymm (fpOfInt_mag_le h1 h2) ?_
  calc 0x4F000000 = fpRoundMag Config.fmt (2147483584 * 2 ^ 149) 1 := by decide
    _ ≤ _ := roundMag_mono Config.fmt Nat.one_pos Nat.one_pos
      (Nat.mul_le_mul_right _ (Nat.mul_le_mul_right _ h))

/-- A large draw has the unscaled value 1.0 with its sign. -/
theorem unscaled_of_large_draw {r : Int} (h1 : -2 ^ 31 ≤ r) (h2 : r < 2 ^ 31)
    (h : 2147483584 ≤ r.natAbs) :
    unscaled Config.fmt r = fpPack Config.fmt (decide (r < 0)) 0x3F800000 := by
  obtain ⟨n, hn, -, -, -, -, hround⟩ := unscaled_spec h1 h2
  rw [mag_of_large_draw h1 h2 h] at hround
  have hone : fpRoundMag Config.fmt (fpQuanta Config.fmt 0x4F000000) (2 ^ 31) = 0x3F800000 := by decide
  rw [hn, hround, hone]

/-- Settles O28: `unscaled_spec` gives the draw's sign and its magnitude, divided exactly by 2^31. -/
theorem unscaledValueOfADraw : Obligations.UnscaledValueOfADraw := by
  refine ⟨by decide, fun r h1 h2 => ?_⟩
  obtain ⟨n, hn, hle, hdiv, hzero, -, -⟩ := unscaled_spec h1 h2
  have hnfin : n < fpInfMag Config.fmt := by rw [fpInfMag_fmt]; omega
  have hrfin : fpRoundMag Config.fmt (r.natAbs * 2 ^ 149) 1 < fpInfMag Config.fmt := by
    have := fpOfInt_mag_le h1 h2
    rw [fpInfMag_fmt]; omega
  have hval : fpValue Config.fmt (unscaled Config.fmt r) =
      fpSigned (decide (r < 0)) (fpQuanta Config.fmt n) := by rw [hn, fpValue_fpPack _ _ hnfin]
  have hscaled : fpValue Config.fmt (unscaled Config.fmt r) * 2 ^ 31 =
      fpSigned (decide (r < 0)) (fpQuanta Config.fmt (fpRoundMag Config.fmt (r.natAbs * 2 ^ 149) 1)) := by
    rw [hval, ← hdiv, fpSigned_mul]; norm_num
  refine ⟨by rw [hn, fpFinite_fpPack _ _ hnfin], ?_, ?_, fun hr => ?_, fun hr => ?_, fun hr => ?_,
    fun hr => ?_⟩
  · rw [hscaled, fpOfInt_fmt, fpValue_fpPack _ _ hrfin]
  · rw [Int.abs_eq_natAbs, hval, natAbs_fpSigned, Nat.cast_le]
    exact (fpQuanta_strictMono Config.fmt).monotone hle
  · rw [Int.abs_eq_natAbs] at hr
    rw [hscaled, quanta_roundMag_of_le (by exact_mod_cast hr), fpSigned_mul, fpSigned_natAbs, fpUnit_fmt]
  · rw [hn, hzero.2 hr, hr]; decide
  · rw [unscaled_of_large_draw h1 h2 (by omega), decide_eq_false (by omega)]; decide
  · rw [unscaled_of_large_draw h1 h2 (by omega), decide_eq_true (by omega)]; decide

/-! ### The rescaler -/

/-- Dividing an unscaled draw by 2, 4 or 8 is exact: it is zero or stays a normal value. -/
theorem quanta_rescaled_pow {n j : Nat} (hle : n ≤ 0x3F800000) (hlow : n ≠ 0 → 0x30000000 ≤ n)
    (hj : j ≤ 3) :
    fpQuanta Config.fmt (fpRoundMag Config.fmt (fpQuanta Config.fmt n) (2 ^ j)) * 2 ^ j =
      fpQuanta Config.fmt n := by
  by_cases h0 : n = 0
  · rw [h0, fpQuanta_zero, roundMag_zero, fpQuanta_zero, Nat.zero_mul]
  · have hfrac : (j + 1) * 2 ^ Config.fmt.fracBits ≤ n := by
      calc (j + 1) * 2 ^ Config.fmt.fracBits ≤ (3 + 1) * 2 ^ 23 := Nat.mul_le_mul_right _ (by omega)
        _ ≤ n := le_trans (by decide) (hlow h0)
    obtain ⟨hround, hexact⟩ := roundMag_div_pow Config.fmt (by rw [fpInfMag_fmt]; omega) hfrac
    rw [hround, hexact]

/-- The slots whose divisor is a power of two. -/
theorem divisor_eq_two_pow {k : Fin 9} (hk : k = 0 ∨ k = 2 ∨ k = 6) :
    ∃ j ≤ 3, k.val + 2 = 2 ^ j := by
  rcases hk with rfl | rfl | rfl
  · exact ⟨1, by decide, rfl⟩
  · exact ⟨2, by decide, rfl⟩
  · exact ⟨3, by decide, rfl⟩

/-- Settles O29: the divisors are read as they stand, and a power of two only moves the exponent. -/
theorem rescalerDivisors : Obligations.RescalerDivisors := by
  refine fun k => ⟨?_, fun r h1 h2 hk => ?_⟩
  · rw [fpValue_of_fpUnpack _ (fpUnpack_divisor k), fpUnit_fmt]
    simp [fpSigned]
  · obtain ⟨n, hn, hle, -, -, hlow, -⟩ := unscaled_spec h1 h2
    obtain ⟨j, hj, hkj⟩ := divisor_eq_two_pow hk
    have hnfin : n < fpInfMag Config.fmt := by rw [fpInfMag_fmt]; omega
    obtain ⟨hfin, -⟩ := refreshedSlotRange k r h1 h2
    have hcast : (k.val : Int) + 2 = ((2 ^ j : Nat) : Int) := by exact_mod_cast hkj
    rw [newHold, hn, rescaled_fpPack k hnfin, hkj] at hfin ⊢
    rw [fpValue_fpPack _ _ ((fpFinite_fpPack_round _ _ _ _).1 hfin), fpValue_fpPack _ _ hnfin, hcast,
      ← fpSigned_mul, quanta_rescaled_pow hle hlow hj]

end Sys2Proof.Machine
end

section
/-! PROOFS. Decoding on the port and in a table (30_encoding R70 to R77), and the step around the decoded
command (60_exceptions R153 to R160). -/

namespace Sys2Proof.Machine

/-! ### Command words -/

/-- Settles O2: the encoder undoes the decoder, and no command has an operand that could be ill-formed. -/
theorem decodeAndEncodeAgree : Obligations.DecodeAndEncodeAgree :=
  ⟨fun i => ⟨instr_wf i, decodeCmd_encode i⟩, encode_decodeCmd⟩

/-- Settles O3: the two checks of `decodeWord` in turn. -/
theorem tableWordIsTwoBits : Obligations.TableWordIsTwoBits := by
  refine fun nbits w => ⟨fun ⟨hbits, hw⟩ => ?_, fun h => ?_⟩
  · rw [decodeTableWord, decodeWord, if_neg (not_lt.2 hbits), if_neg (not_le.2 hw)]
  · unfold decodeTableWord decodeWord
    by_cases hbits : nbits < 2
    · rw [if_pos hbits]
    · rw [if_neg hbits, if_pos (h.resolve_left hbits)]

/-! ### One step -/

/-- Settles O4: counting a step is what stands around the command. -/
theorem stepRunsTheDecodedCommand : Obligations.StepRunsTheDecodedCommand :=
  fun _ hrst => step_of_not_rst hrst

/-- The port value put in front is the one the next step performs. -/
@[simp] theorem portNow_presentPort (p : Port) (s : State) : portNow (presentPort p s) = p := rfl

theorem presentPort_sameRegs (p : Port) (s : State) : SameRegs (presentPort p s) s :=
  ⟨rfl, rfl, rfl, rfl, rfl, rfl, rfl, rfl⟩

/-- Settles O5: the presented word stands in front of the port values, without `RST`. -/
theorem presentedWordIsPerformedNext : Obligations.PresentedWordIsPerformedNext := by
  intro s nbits w _
  have hrst : (portNow (s.withFetchWord nbits w)).rst = false := by
    rw [State.withFetchWord, portNow_presentPort]
  exact ⟨step_of_not_rst hrst, rfl, presentPort_sameRegs ⟨BitVec.ofNat 2 w, false⟩ s⟩

/-- Settles O8: a step is the reset or the decoded command, whose outcomes are `exec_cases`. -/
theorem outcomesAreClosed : Obligations.OutcomesAreClosed := by
  intro s
  by_cases hrst : (portNow s).rst = true
  · exact .inl ⟨_, step_of_rst hrst⟩
  · rw [step_of_not_rst (Bool.not_eq_true _ ▸ hrst)]
    rcases exec_cases (decodeCmd (portNow s).cmd) s with ⟨t, ht⟩ | ⟨-, -, hfault⟩ | ⟨-, hrefused⟩
    · exact .inl ⟨tick t, by rw [ht, onNext_next]⟩
    · exact .inr (.inl (by rw [hfault, onNext_fault]))
    · exact .inr (.inr (by rw [hrefused, onNext_refused]))

/-- Settles O9: without `RST` the two words that break a duty are the two that stop. -/
theorem stepCompletesIffDutiesAreKept : Obligations.StepCompletesIffDutiesAreKept := by
  intro s
  cases hrst : (portNow s).rst with
  | true => exact iff_of_true ⟨_, step_of_rst hrst⟩ (.inl rfl)
  | false =>
    constructor
    · rintro ⟨t, ht⟩
      refine .inr ⟨fun hcmd => ?_, fun hcmd => ?_⟩
      · cases (step_of_reserved hcmd hrst).symm.trans ht
      · by_contra hinit
        cases (step_of_next_bottom hrst hcmd (by simpa using hinit)).symm.trans ht
    · rintro (h | ⟨hrsvd, hnext⟩)
      · cases h
      · have hbottom : ¬((portNow s).cmd = 0b10#2 ∧ s.init = false) := by
          rintro ⟨hcmd, hinit⟩
          rw [hnext hcmd] at hinit
          cases hinit
        obtain ⟨t, ht⟩ := exec_decodeCmd_completes hrsvd hbottom
        exact ⟨tick t, by rw [step_of_not_rst hrst, ht, onNext_next]⟩

/-! ### `INIT` and power-up -/

/-- Settles O11: at power-up the block is not initialised and no step is counted. -/
theorem powerUpBehaviour : Obligations.PowerUpBehaviour :=
  ⟨exec_next_of_bottom rfl, exec_rsvd State.powerOn, exec_idle State.powerOn, rfl,
    initRegs State.powerOn, exec_init State.powerOn, initRegs_sameRegs_reset State.powerOn⟩

theorem initRegs_initRegs (s : State) : initRegs (initRegs s) = initRegs s := rfl

/-- Settles O14: `INIT` writes the same registers whatever they held. -/
theorem initIsIdempotent : Obligations.InitIsIdempotent := by
  intro s
  simp only [execAll, exec_init, exec_idle, onNext_next, initRegs_initRegs, and_self]

/-! ### Frames -/

/-- Settles O17: `IDLE` answers its state, `INIT` keeps the ports and the count, and `NEXT` writes the
selected slot alone. -/
theorem commandFrames : Obligations.CommandFrames := by
  intro i s t h
  rcases exec_next_cases h with ⟨rfl, rfl⟩ | ⟨rfl, rfl⟩ | ⟨rfl, -, rfl⟩
  · exact ⟨rfl, rfl, fun _ => ⟨rfl, rfl⟩, fun _ _ _ => rfl, fun _ => SameRegs.refl t⟩
  · exact ⟨rfl, rfl, fun hi => absurd rfl hi, fun hi => absurd rfl hi, nofun⟩
  · refine ⟨produceSample_ports s, produceSample_steps s,
      fun _ => ⟨produceSample_init s, produceSample_S s⟩, fun _ j hj => ?_, nofun⟩
    exact (readHold_produceSample s j).trans (if_neg (hj rfl))

/-- Settles O20: a draw is written out in terms of the three registers. -/
theorem drawDependsOnTheGeneratorAlone : Obligations.DrawDependsOnTheGeneratorAlone := by
  intro s t hS hX hW
  simp only [draw_snd, draw_fst, writePrng_X, writePrng_W, hS, hX, hW, and_self]

/-- Settles O18: the registers of a sample are written out in terms of what `NEXT` reads. -/
theorem nextDependsOnlyOnWhatItReads : Obligations.NextDependsOnlyOnWhatItReads := by
  intro s t hs ht hS hX hW hC hO hstale
  obtain ⟨hr, -, -⟩ := drawDependsOnTheGeneratorAlone s t hS hX hW
  have hk : octave s = octave t := by rw [octave, octave, hC]
  have hstale : readHold s (octave s) = readHold t (octave t) := hstale
  have hOut : (produceSample s).OUT = (produceSample t).OUT := by
    rw [produceSample_OUT, produceSample_OUT, hO, hstale, hr, hk]
  refine ⟨_, _, exec_next_of_init hs, exec_next_of_init ht, ?_, ?_, ?_, hOut, ?_, ?_⟩
  · rw [produceSample_X, produceSample_X, hS, hX, hW]
  · rw [produceSample_W, produceSample_W, hS, hW]
  · rw [produceSample_CNT, produceSample_CNT, hC]
  · rw [produceSample_SAMPLE, produceSample_SAMPLE, hOut]
  · change readHold _ (octave s) = readHold _ (octave t)
    rw [readHold_produceSample, readHold_produceSample, if_pos rfl, if_pos rfl, hr, hk]

/-- Settles O43: `NEXT` leaves `OUT` halved in the sample, `INIT` leaves zero, and an idle step leaves the
sample and the flag. -/
theorem hostReadsTheResult : Obligations.HostReadsTheResult := by
  refine ⟨fun s t h => ?_, fun s t h => ?_, fun s t _ h => ?_, fun s t hinit hrst hdec h => ?_⟩
  · obtain ⟨h, -⟩ | ⟨h, -⟩ | ⟨-, hinit, rfl⟩ := exec_next_cases h
    · cases h
    · cases h
    · rw [readSample, if_pos (by rw [produceSample_init, hinit]), produceSample_SAMPLE, halved]
  · rw [exec_init] at h
    cases h
    rfl
  · rw [exec_idle] at h
    cases h
    rfl
  · rw [step_of_not_rst hrst, hdec, exec_idle, onNext_next] at h
    cases h
    rw [readSample, readSample, if_pos hinit, if_pos (by rw [tick_init, hinit]), tick_SAMPLE]

end Sys2Proof.Machine
end

section
/-! PROOFS. Counting `NEXT`s: the counter and the Weyl accumulator (10_state R23, R24) and the slots they
refresh (41_accumulator R120, R123). -/

namespace Sys2Proof.Machine

theorem ofNat_mul_toNat (n : Nat) (v : U64) : (BitVec.ofNat 64 n * v).toNat = n * v.toNat % 2 ^ 64 := by
  rw [BitVec.toNat_mul, BitVec.toNat_ofNat, Nat.mod_mul_mod]

/-- Settles O23: `n` samples add `n` to the counter and `n` times `S` to the accumulator, both zero after
`INIT`. -/
theorem counterAndWeylAfterNexts : Obligations.CounterAndWeylAfterNexts := by
  intro s n
  obtain ⟨hC, hW, hS, hinit⟩ := iterate_produceSample n (initRegs s)
  refine ⟨_, execAll_init_nexts s n, ?_, ?_, hS, hinit⟩
  · rw [hC, initRegs_CNT, zero_add, BitVec.toNat_ofNat]
  · rw [hW, initRegs_W, zero_add, ofNat_mul_toNat]
    rfl

/-- How many `NEXT`s a window of slot `k` holds. -/
theorem window_eq (k : Fin 9) :
    (if k.val = 8 then 256 else 2 ^ (k.val + 1)) = 2 ^ min (k.val + 1) 8 := by
  revert k; decide

/-- The counters that select a slot, without the congruence. -/
theorem tz8_eq_iff_residue (c : U8) (k : Fin 9) :
    tz8 c = k ↔ if k.val = 8 then c.toNat = 0 else c.toNat % 2 ^ (k.val + 1) = 2 ^ k.val := by
  rw [tz8_eq_iff_modEq, Nat.ModEq]
  by_cases hk : k.val = 8
  · rw [if_pos hk, hk, show min (8 + 1) 8 = 8 from rfl, Nat.mod_self, Nat.mod_eq_of_lt c.isLt]
  · rw [if_neg hk, show min (k.val + 1) 8 = k.val + 1 by omega,
      Nat.mod_eq_of_lt (Nat.pow_lt_pow_right (by decide) (Nat.lt_succ_self _))]

/-- The slot that the `NEXT` after `n` others selects, as a congruence of `n`: the wrap of the counter at
256 is a multiple of every modulus. -/
theorem octave_iterate_iff (s : State) (n : Nat) (k : Fin 9) :
    octave (produceSample^[n] s) = k ↔
      s.CNT.toNat + n ≡ 2 ^ k.val [MOD 2 ^ min (k.val + 1) 8] := by
  obtain ⟨hC, -⟩ := iterate_produceSample n s
  have hdvd : 2 ^ min (k.val + 1) 8 ∣ 2 ^ 8 := Nat.pow_dvd_pow 2 (Nat.min_le_right _ _)
  have hwrap : (s.CNT + BitVec.ofNat 8 n).toNat ≡ s.CNT.toNat + n [MOD 2 ^ 8] := by
    rw [Nat.ModEq, BitVec.toNat_add, BitVec.toNat_ofNat, Nat.mod_mod, Nat.add_mod_mod]
  rw [octave, tz8_eq_iff_modEq, hC]
  have hwrap := hwrap.of_dvd hdvd
  exact ⟨hwrap.symm.trans, hwrap.trans⟩

/-- A window as long as the modulus meets every residue once. -/
theorem existsUnique_add_modEq (c a : Nat) {m : Nat} (hm : 0 < m) :
    ∃! n, n < m ∧ c + n ≡ a [MOD m] := by
  obtain ⟨z, hlt, hz⟩ := Int.existsUnique_equiv_nat ((a : Int) - c) (b := m) (by omega)
  have hz' : c + z ≡ a [MOD m] := by
    rw [← Int.natCast_modEq_iff]
    push_cast
    have h := hz.add_left (c : Int)
    rwa [add_sub_cancel] at h
  refine ⟨z, ⟨by omega, hz'⟩, ?_⟩
  rintro n ⟨hn, hmod⟩
  exact ((hmod.trans hz'.symm).add_left_cancel').eq_of_lt_of_lt hn (by omega)

/-- Settles O22: what selects a slot is a residue of the counter, and the counter goes up by one. -/
theorem refreshCadence : Obligations.RefreshCadence := by
  refine ⟨tz8_eq_iff_residue, fun s hinit k => ?_⟩
  have hselect (n : Nat) : (∃ t, execAll (List.replicate n .next) s = .next t ∧ octave t = k) ↔
      s.CNT.toNat + n ≡ 2 ^ k.val [MOD 2 ^ min (k.val + 1) 8] := by
    rw [execAll_replicate_next n s hinit, ← octave_iterate_iff]
    constructor
    · rintro ⟨t, ht, hk⟩
      cases ht
      exact hk
    · exact fun hk => ⟨_, rfl, hk⟩
  simp only [window_eq, hselect]
  exact existsUnique_add_modEq _ _ (Nat.two_pow_pos _)

end Sys2Proof.Machine
end

section
/-! PROOFS. Commands on the ports, step by step, and what is observed of a run (20_memory R57,
70_reset R174, R179, 41_accumulator R128, R135, R136). -/

namespace Sys2Proof.Machine

/-! ### Commands on the ports -/

theorem onNext_eq_next {o : Host.Outcome State Fault Refusal}
    {k : State → Host.Outcome State Fault Refusal} {t : State} (h : onNext o k = .next t) :
    ∃ u, o = .next u ∧ k u = .next t := by
  cases o with
  | next u => exact ⟨u, rfl, h⟩
  | fault r => cases h
  | refused r => cases h

/-- A step without `RST` whose command completes. -/
theorem step_of_exec {s u : State} {p : Port} {ps : List Port} (n : Nat) (hrst : p.rst = false)
    (h : exec (decodeCmd p.cmd) s = .next u) :
    step { s with ports := p :: ps, steps := n } = .next { u with ports := ps, steps := n + 1 } := by
  have hexec := exec_withModelFields (p :: ps) n h
  have hstep := step_of_not_rst (s := { s with ports := p :: ps, steps := n }) hrst
  have hport : portNow { s with ports := p :: ps, steps := n } = p := rfl
  rw [hstep, hport, hexec, onNext_next]
  rfl

theorem run_succ_of_step {s t : State} (n : Nat) (h : step s = .next t) :
    Host.Core.run Sys2Proof.core (n + 1) s = Host.Core.run Sys2Proof.core n t := by
  have h : Sys2Proof.core.step s = .next t := h
  simp only [Host.Core.run, h]

/-- The commands from a state whose step count is any number. -/
theorem run_cmdPorts {is : List Instr} {s t : State} (rest : List Port) (n : Nat)
    (h : execAll is s = .next t) :
    Host.Core.run Sys2Proof.core is.length { s with ports := is.map cmdPort ++ rest, steps := n } =
      .next { t with ports := rest, steps := n + is.length } := by
  induction is generalizing s n with
  | nil => cases h; rfl
  | cons i is ih =>
    obtain ⟨u, hu, hrest⟩ := onNext_eq_next h
    have hexec : exec (decodeCmd (cmdPort i).cmd) s = .next u := by rw [cmdPort, decodeCmd_encode, hu]
    have hstep := step_of_exec (ps := is.map cmdPort ++ rest) n rfl hexec
    rw [List.length_cons, List.map_cons, List.cons_append, run_succ_of_step _ hstep, ih _ hrest,
      Nat.add_right_comm, Nat.add_assoc]

/-- Settles O39: one step for each command, from the step count of the state. -/
theorem stepsPerformTheCommandsInOrder : Obligations.StepsPerformTheCommandsInOrder :=
  fun _ s _ rest h => run_cmdPorts rest s.steps h

/-! ### One step of a run -/

/-- A run that has recorded nothing, with `ps` to come and the samples `acc` so far. -/
def runWith (s : State) (ps : List Port) (acc : List Fp) : Run := ⟨{ s with ports := ps }, acc, none⟩

theorem observe_eq (s : State) (ps : List Port) : observe s ps = runFor ps.length (runWith s ps []) := rfl

theorem runStep_of_step {r : Run} {t : State} (hmark : r.mark = none) (h : step r.state = .next t) :
    runStep r =
      ⟨t, if returnsSample r.state then r.samples ++ [t.SAMPLE] else r.samples, none⟩ := by
  simp [runStep, hmark, h]

theorem runStep_rst (s : State) {p : Port} (ps : List Port) (acc : List Fp) (h : p.rst = true) :
    runStep (runWith s (p :: ps) acc) = runWith { initRegs s with steps := s.steps + 1 } ps acc := by
  have hstep := step_of_rst (s := { s with ports := p :: ps }) h
  have hsample : returnsSample { s with ports := p :: ps } = false := by
    simp [returnsSample, portNow, h]
  rw [runStep_of_step rfl hstep, runWith, hsample]
  rfl

theorem runStep_exec {s u : State} {p : Port} (ps : List Port) (acc : List Fp) (hrst : p.rst = false)
    (h : exec (decodeCmd p.cmd) s = .next u) :
    runStep (runWith s (p :: ps) acc) =
      runWith { u with steps := s.steps + 1 } ps
        (if decodeCmd p.cmd = .next then acc ++ [u.SAMPLE] else acc) := by
  have hstep := step_of_exec (ps := ps) s.steps hrst h
  have hsample : returnsSample { s with ports := p :: ps } = decide (decodeCmd p.cmd = .next) := by
    simp [returnsSample, portNow, hrst]
  rw [runStep_of_step rfl hstep, runWith, hsample]
  simp only [decide_eq_true_eq]
  rfl

/-- A command that stops is recorded over the run as it stands. -/
theorem runStep_stop {s : State} {p : Port} (ps : List Port) (acc : List Fp) (hrst : p.rst = false)
    (h : ∀ u, exec (decodeCmd p.cmd) s ≠ .next u) :
    ∃ m, runStep (runWith s (p :: ps) acc) = { runWith s (p :: ps) acc with mark := some m } := by
  rcases runStep_cases s p ps acc with ⟨t, ht, -⟩ | ⟨-, -, m, hm⟩
  · rcases ht with ⟨hr, -⟩ | ⟨-, u, hu, -⟩
    · rw [hrst] at hr; cases hr
    · exact absurd hu (h u)
  · exact ⟨m, hm⟩

/-! ### Runs that are observed alike -/

/-- Two runs with the same samples, the same registers, and both or neither stopped. -/
def ObservedAlike (a b : Run) : Prop :=
  a.samples = b.samples ∧ SameRegs a.state b.state ∧ a.mark.isSome = b.mark.isSome

theorem ObservedAlike.symm {a b : Run} (h : ObservedAlike a b) : ObservedAlike b a := by
  obtain ⟨hsamples, hregs, hmark⟩ := h
  exact ⟨hsamples.symm, hregs.symm, hmark.symm⟩

theorem ObservedAlike.trans {a b c : Run} (h : ObservedAlike a b) (h' : ObservedAlike b c) :
    ObservedAlike a c := by
  obtain ⟨hsamples, hregs, hmark⟩ := h
  obtain ⟨hsamples', hregs', hmark'⟩ := h'
  exact ⟨hsamples.trans hsamples', hregs.trans hregs', hmark.trans hmark'⟩

/-- A command that stops in one state stops in every state with the same registers. -/
theorem exec_ne_next_of_sameRegs {i : Instr} {s t : State} (h : SameRegs s t)
    (hs : ∀ u, exec i s ≠ .next u) (u : State) : exec i t ≠ .next u := by
  intro ht
  obtain ⟨v, hv, -⟩ := exec_sameRegs h.symm ht
  exact hs v hv

/-- One step of two runs on the same port value, whatever the port values behind it. -/
theorem runStep_alike {s t : State} (h : SameRegs s t) (p : Port) (ps qs : List Port) (acc : List Fp) :
    (∃ s' t' acc', SameRegs s' t' ∧ runStep (runWith s (p :: ps) acc) = runWith s' ps acc' ∧
      runStep (runWith t (p :: qs) acc) = runWith t' qs acc') ∨
    (∃ m m', runStep (runWith s (p :: ps) acc) = { runWith s (p :: ps) acc with mark := some m } ∧
      runStep (runWith t (p :: qs) acc) = { runWith t (p :: qs) acc with mark := some m' }) := by
  cases hrst : p.rst with
  | true =>
    have hregs := (initRegs_sameRegs_reset s).trans (initRegs_sameRegs_reset t).symm
    exact .inl ⟨{ initRegs s with steps := s.steps + 1 }, { initRegs t with steps := t.steps + 1 }, acc,
      hregs, runStep_rst s ps acc hrst, runStep_rst t qs acc hrst⟩
  | false =>
    by_cases hstop : ∃ u, exec (decodeCmd p.cmd) s = .next u
    · obtain ⟨u, hu⟩ := hstop
      obtain ⟨v, hv, huv⟩ := exec_sameRegs h hu
      have hsample : u.SAMPLE = v.SAMPLE := by
        obtain ⟨-, -, -, -, -, -, -, hsample⟩ := huv
        exact hsample
      refine .inl ⟨{ u with steps := s.steps + 1 }, { v with steps := t.steps + 1 }, _, huv,
        runStep_exec ps acc hrst hu, ?_⟩
      rw [runStep_exec qs acc hrst hv, hsample]
    · rw [not_exists] at hstop
      obtain ⟨m, hm⟩ := runStep_stop ps acc hrst hstop
      obtain ⟨m', hm'⟩ := runStep_stop qs acc hrst (exec_ne_next_of_sameRegs h hstop)
      exact .inr ⟨m, m', hm, hm'⟩

/-- An idle step leaves the run but for the step count. -/
theorem runStep_idle (s : State) (ps : List Port) (acc : List Fp) :
    runStep (runWith s (idlePort :: ps) acc) = runWith { s with steps := s.steps + 1 } ps acc :=
  runStep_exec ps acc rfl (exec_idle s)

/-- A run over port values, and the run over them without the idle ones, from states with the same
registers. -/
theorem runFor_dropIdle (ps : List Port) {s t : State} (h : SameRegs s t) (acc : List Fp) :
    ObservedAlike (runFor ps.length (runWith s ps acc))
      (runFor (ps.filter fun p => p ≠ idlePort).length
        (runWith t (ps.filter fun p => p ≠ idlePort) acc)) := by
  induction ps generalizing s t acc with
  | nil => exact ⟨rfl, h, rfl⟩
  | cons p ps ih =>
    by_cases hp : p = idlePort
    · rw [List.filter_cons_of_neg (by simp [hp]), hp, List.length_cons, runFor, runStep_idle]
      exact ih (s := { s with steps := s.steps + 1 }) h acc
    · rw [List.filter_cons_of_pos (by simp [hp]), List.length_cons, List.length_cons, runFor, runFor]
      rcases runStep_alike h p ps (ps.filter fun p => p ≠ idlePort) acc with
        ⟨s', t', acc', h', hs, ht⟩ | ⟨m, m', hs, ht⟩
      · rw [hs, ht]
        exact ih h' acc'
      · rw [hs, ht, runFor_of_mark rfl, runFor_of_mark rfl]
        exact ⟨rfl, h, rfl⟩

/-- What is observed of a run depends on the registers alone: both runs are observed as the run without the
idle steps is. -/
theorem runFor_alike (ps : List Port) {s t : State} (h : SameRegs s t) (acc : List Fp) :
    ObservedAlike (runFor ps.length (runWith s ps acc)) (runFor ps.length (runWith t ps acc)) :=
  (runFor_dropIdle ps h acc).trans (runFor_dropIdle ps (SameRegs.refl t) acc).symm

/-- Settles O40: the two runs from one state, with no sample so far. -/
theorem idleStepsAreInvisible : Obligations.IdleStepsAreInvisible :=
  fun s ps => runFor_dropIdle ps (SameRegs.refl s) []

/-- Settles O41: `INIT` leaves the registers of reset. -/
theorem initIsIndistinguishableFromReset : Obligations.InitIsIndistinguishableFromReset := by
  intro s t ps h
  rw [exec_init] at h
  cases h
  exact runFor_alike ps (initRegs_sameRegs_reset s) []

/-! ### Runs of `NEXT`s -/

/-- `n` `NEXT`s from an initialised state give `n` more samples and record nothing. -/
theorem runFor_nexts (n : Nat) {s : State} (h : s.init = true) (acc : List Fp) :
    (runFor n (runWith s (List.replicate n (cmdPort .next)) acc)).samples.length = acc.length + n ∧
      (runFor n (runWith s (List.replicate n (cmdPort .next)) acc)).mark = none := by
  induction n generalizing s acc with
  | zero => exact ⟨rfl, rfl⟩
  | succ n ih =>
    have hdec : decodeCmd (cmdPort .next).cmd = .next := decodeCmd_encode .next
    have hexec : exec (decodeCmd (cmdPort .next).cmd) s = .next (produceSample s) := by
      rw [hdec, exec_next_of_init h]
    rw [List.replicate_succ, runFor, runStep_exec _ _ rfl hexec, if_pos hdec]
    have hrest (u : State) (m : Nat) (hu : u.init = true) (acc : List Fp) :=
      ih (s := { u with steps := m }) hu acc
    obtain ⟨hlen, hmark⟩ := hrest (produceSample s) (s.steps + 1) (init_produceSample h)
      (acc ++ [(produceSample s).SAMPLE])
    rw [List.length_append, List.length_singleton, Nat.add_assoc, Nat.add_comm 1] at hlen
    exact ⟨hlen, hmark⟩

/-- After the step with `INIT` the run stands at its registers. -/
theorem observe_init (s : State) (ps : List Port) :
    observe s (cmdPort .init :: ps) =
      runFor ps.length (runWith { initRegs s with steps := s.steps + 1 } ps []) := by
  have hexec : exec (decodeCmd (cmdPort .init).cmd) s = .next (initRegs s) := exec_init s
  rw [observe_eq, List.length_cons, runFor, runStep_exec ps [] rfl hexec]
  rfl

/-- Settles O42: after `INIT` the registers do not depend on the state before it, and each `NEXT` gives one
sample. -/
theorem samplesAreAFunctionOfTheCount : Obligations.SamplesAreAFunctionOfTheCount := by
  intro s t n
  dsimp only
  rw [observe_init, observe_init, List.length_replicate]
  have hregs := (initRegs_sameRegs_reset s).trans (initRegs_sameRegs_reset t).symm
  have halike := runFor_alike (List.replicate n (cmdPort .next))
    (s := { initRegs s with steps := s.steps + 1 }) (t := { initRegs t with steps := t.steps + 1 }) hregs []
  rw [List.length_replicate] at halike
  obtain ⟨hsamples, -⟩ := halike
  obtain ⟨hlen, hmark⟩ := runFor_nexts n (s := { initRegs s with steps := s.steps + 1 }) rfl []
  rw [List.length_nil, Nat.zero_add] at hlen
  exact ⟨hsamples, hlen, hmark⟩

/-! ### Instances -/

/-- Settles O44: a step of one block changes its own entry of the list and no other. -/
theorem instancesAreIndependent : Obligations.InstancesAreIndependent := by
  intro sys i j hij
  refine ⟨List.getElem?_modify_ne runStep sys hij, ?_, List.modify_modify_ne runStep runStep sys hij.symm⟩
  exact List.getElem?_modify_eq runStep i sys

end Sys2Proof.Machine
end

section
/-! PROOFS. Listings of mnemonics (30_encoding R78): cut at the line ends, each line is its command. -/

namespace Sys2Proof.Machine

/-- A line is what stands before the next line end. -/
theorem splitLines_append_newline {line : List Char} (h : '\n' ∉ line) (acc rest : List Char) :
    splitLines acc (line ++ '\n' :: rest) = (acc.reverse ++ line) :: splitLines [] rest := by
  induction line generalizing acc with
  | nil => rw [List.nil_append, splitLines, if_pos rfl, List.append_nil]
  | cons c line ih =>
    rw [List.mem_cons, not_or] at h
    obtain ⟨hc, hline⟩ := h
    rw [List.cons_append, splitLines, if_neg (Ne.symm hc), ih hline, List.reverse_cons, List.append_assoc,
      List.singleton_append]

theorem newline_not_mem_mnemonic (i : Instr) : '\n' ∉ mnemonic i := by
  cases i <;> decide

/-- A mnemonic has no comment and no blanks around it. -/
theorem trimBlanks_dropComment_mnemonic (i : Instr) :
    trimBlanks (dropComment (mnemonic i)) = mnemonic i := by
  cases i <;> decide

theorem mnemonic_ne_nil (i : Instr) : mnemonic i ≠ [] := by
  cases i <;> decide

/-- Every command is read from its spelling. -/
theorem spelling (i : Instr) : Laws.Spelling.Statement i := by
  cases i with
  | idle => exact Laws.Spelling.idle
  | init => exact Laws.Spelling.init
  | next => exact Laws.Spelling.next
  | rsvd => exact Laws.Spelling.rsvd

theorem parseItem_mnemonic (i : Instr) : parseItem (mnemonic i) = .ok (.cmd i) := by
  obtain ⟨-, hitem⟩ := spelling i
  exact hitem

theorem parseLines_mnemonic (i : Instr) {lines : List (List Char)} {its : List Item}
    (h : parseLines lines = .ok its) : parseLines (mnemonic i :: lines) = .ok (.cmd i :: its) := by
  rw [parseLines, trimBlanks_dropComment_mnemonic]
  rw [if_neg (mnemonic_ne_nil i), parseItem_mnemonic, h]

/-- The text after the last line end is empty and holds no item (notes/assumptions/8.md). -/
theorem parseListing_mnemonics (is : List Instr) :
    parseListing (is.flatMap fun i => mnemonic i ++ ['\n']) = .ok (is.map .cmd) := by
  induction is with
  | nil => rfl
  | cons i is ih =>
    rw [List.flatMap_cons, List.append_assoc, List.singleton_append, parseListing,
      splitLines_append_newline (newline_not_mem_mnemonic i)]
    exact parseLines_mnemonic i ih

theorem expandItems_cmds (is : List Instr) : expandItems (is.map .cmd) = .ok (is.map cmdPort) := by
  induction is with
  | nil => rfl
  | cons i is ih =>
    rw [List.map_cons, List.map_cons, expandItems, expandItem, ih]
    rfl

/-- Settles O46: the listing is read as its commands, and each command is one step. -/
theorem mnemonicListingsAssemble : Obligations.MnemonicListingsAssemble := by
  intro is
  rw [assemble, parseListing_mnemonics]
  exact expandItems_cmds is

end Sys2Proof.Machine
end
